-- ==== Sys2Proof/Word.lean ====
section
/-! DEFINITION. The widths of the emusharp CORE's values (spec/00_scope.md R6, R8, R14). All values are unsigned. -/

namespace Sys2Proof

/-- A byte: the width of a general register, a memory cell, a timer and the immediate `NN` (R6, R52). -/
abbrev Byte := BitVec 8

/-- Sixteen bits: an instruction word, `I`, `PC` and a return-stack entry (R6, R17, R18, R21). -/
abbrev Word := BitVec 16

/-- Twelve bits: the address operand `NNN` (R52). -/
abbrev Addr := BitVec 12

/-- Four bits: DRW's row count `N` (R52). -/
abbrev Nibble := BitVec 4

/-- A general register's number. It comes from a 4-bit field, so every field value names a register (R14). -/
abbrev Reg := Fin 16

/-- Register 15, the register that doubles as the only flag (R15). -/
abbrev vf : Reg := 15

/-- A key's number, 0 to 15 (R6, R24, R139). -/
abbrev Key := Fin 16

end Sys2Proof
end

