-- ==== Sys2Proof/Syntax.lean ====
section
/-! DEFINITION. The 35 instructions, one constructor per row of spec/opcode_table.json (spec/30_encoding.md R53, R55),
in the table's order. `x` and `y` are the fields X and Y, `nn` is NN, `nnn` is NNN and `n` is N (R52). -/

namespace Sys2Proof

/-- An instruction with its operand fields (R55). SHR and SHL carry their ignored Y field (R68), SYS its ignored NNN. -/
inductive Instr where
  | cls
  | ret
  | sys  (nnn : Addr)
  | jp   (nnn : Addr)
  | call (nnn : Addr)
  | sei  (x : Reg) (nn : Byte)
  | snei (x : Reg) (nn : Byte)
  | ser  (x y : Reg)
  | ldi  (x : Reg) (nn : Byte)
  | addi (x : Reg) (nn : Byte)
  | mov  (x y : Reg)
  | or   (x y : Reg)
  | and  (x y : Reg)
  | xor  (x y : Reg)
  | add  (x y : Reg)
  | sub  (x y : Reg)
  | shr  (x y : Reg)
  | subn (x y : Reg)
  | shl  (x y : Reg)
  | sner (x y : Reg)
  | lda  (nnn : Addr)
  | jpv0 (nnn : Addr)
  | rnd  (x : Reg) (nn : Byte)
  | drw  (x y : Reg) (n : Nibble)
  | skp  (x : Reg)
  | sknp (x : Reg)
  | lddt (x : Reg)
  | wkey (x : Reg)
  | stdt (x : Reg)
  | stst (x : Reg)
  | adda (x : Reg)
  | glyph (x : Reg)
  | bcd  (x : Reg)
  | stm  (x : Reg)
  | ldm  (x : Reg)
deriving DecidableEq, Repr

end Sys2Proof
end

