-- ==== Sys2Proof/WellFormed.lean ====
section
/-! DEFINITION. Which instructions some word encodes. Every operand's type is its field's width, so the one check left is
SYS's: the words `0x00E0` and `0x00EE` are CLS and RET, matched on all 16 bits (spec/30_encoding.md R56, R57). -/

namespace Sys2Proof

/-- `true` when some instruction word decodes to the instruction: SYS with `NNN` = 0x0E0 or 0x0EE has none (R57). -/
def Instr.wf : Instr → Bool
  | .sys nnn => nnn != 0x0E0#12 && nnn != 0x0EE#12
  | _ => true

end Sys2Proof
end

