-- ==== Sys2Proof/Decode.lean ====
section
/-! DEFINITION. The decoder of spec/30_encoding.md R56, a pure function of the 16-bit word that refuses the illegal words
of R61 by name, and the encoder written from the formats of R53. -/

namespace Sys2Proof

/-! ### Fields (R52) -/

/-- `F`, bits 15 to 12. -/
def fieldF (w : Word) : Nat := (w.extractLsb' 12 4).toNat

/-- `X`, bits 11 to 8. -/
def fieldX (w : Word) : Reg := ⟨(w.extractLsb' 8 4).toNat, (w.extractLsb' 8 4).isLt⟩

/-- `Y`, bits 7 to 4. -/
def fieldY (w : Word) : Reg := ⟨(w.extractLsb' 4 4).toNat, (w.extractLsb' 4 4).isLt⟩

/-- `N`, bits 3 to 0. -/
def fieldN (w : Word) : Nibble := w.extractLsb' 0 4

/-- `NN`, bits 7 to 0. -/
def fieldNN (w : Word) : Byte := w.extractLsb' 0 8

/-- `NNN`, bits 11 to 0. -/
def fieldNNN (w : Word) : Addr := w.extractLsb' 0 12

/-! ### Decoding -/

/-- Why a word is `Illegal`: the row of R61's table it falls under. -/
inductive Illegal where
  /-- `5XYN` with N not 0 (R60). -/
  | family5
  /-- `8XYN` with N in 8, 9, A, B, C, D, F (R58). -/
  | family8
  /-- `9XYN` with N not 0 (R60). -/
  | family9
  /-- `EXNN` with NN neither 9E nor A1 (R59). -/
  | familyE
  /-- `FXNN` with NN none of the nine listed values (R59). -/
  | familyF
deriving DecidableEq, Repr

/-- Family 0 (R57): `0x00E0` and `0x00EE` on all 16 bits, every other word is SYS. -/
def decodeFamily0 (w : Word) : Instr :=
  if w = 0x00E0#16 then .cls else if w = 0x00EE#16 then .ret else .sys (fieldNNN w)

/-- Family 8 dispatches on `N` (R58). -/
def decodeFamily8 (w : Word) : Except Illegal Instr :=
  match (fieldN w).toNat with
  | 0x0 => .ok (.mov (fieldX w) (fieldY w))
  | 0x1 => .ok (.or (fieldX w) (fieldY w))
  | 0x2 => .ok (.and (fieldX w) (fieldY w))
  | 0x3 => .ok (.xor (fieldX w) (fieldY w))
  | 0x4 => .ok (.add (fieldX w) (fieldY w))
  | 0x5 => .ok (.sub (fieldX w) (fieldY w))
  | 0x6 => .ok (.shr (fieldX w) (fieldY w))
  | 0x7 => .ok (.subn (fieldX w) (fieldY w))
  | 0xE => .ok (.shl (fieldX w) (fieldY w))
  | _ => .error .family8

/-- Family E dispatches on `NN` (R59). -/
def decodeFamilyE (w : Word) : Except Illegal Instr :=
  match (fieldNN w).toNat with
  | 0x9E => .ok (.skp (fieldX w))
  | 0xA1 => .ok (.sknp (fieldX w))
  | _ => .error .familyE

/-- Family F dispatches on `NN` (R59). -/
def decodeFamilyF (w : Word) : Except Illegal Instr :=
  match (fieldNN w).toNat with
  | 0x07 => .ok (.lddt (fieldX w))
  | 0x0A => .ok (.wkey (fieldX w))
  | 0x15 => .ok (.stdt (fieldX w))
  | 0x18 => .ok (.stst (fieldX w))
  | 0x1E => .ok (.adda (fieldX w))
  | 0x29 => .ok (.glyph (fieldX w))
  | 0x33 => .ok (.bcd (fieldX w))
  | 0x55 => .ok (.stm (fieldX w))
  | 0x65 => .ok (.ldm (fieldX w))
  | _ => .error .familyF

/-- `Decode(w)` (R56). -/
def decode (w : Word) : Except Illegal Instr :=
  match fieldF w with
  | 0x0 => .ok (decodeFamily0 w)
  | 0x1 => .ok (.jp (fieldNNN w))
  | 0x2 => .ok (.call (fieldNNN w))
  | 0x3 => .ok (.sei (fieldX w) (fieldNN w))
  | 0x4 => .ok (.snei (fieldX w) (fieldNN w))
  | 0x5 => if fieldN w = 0#4 then .ok (.ser (fieldX w) (fieldY w)) else .error .family5
  | 0x6 => .ok (.ldi (fieldX w) (fieldNN w))
  | 0x7 => .ok (.addi (fieldX w) (fieldNN w))
  | 0x8 => decodeFamily8 w
  | 0x9 => if fieldN w = 0#4 then .ok (.sner (fieldX w) (fieldY w)) else .error .family9
  | 0xA => .ok (.lda (fieldNNN w))
  | 0xB => .ok (.jpv0 (fieldNNN w))
  | 0xC => .ok (.rnd (fieldX w) (fieldNN w))
  | 0xD => .ok (.drw (fieldX w) (fieldY w) (fieldN w))
  | 0xE => decodeFamilyE w
  | _ => decodeFamilyF w

/-- The instruction word made of the byte at the lower address and the byte after it: big-endian, high byte first
(spec/20_memory.md R37). -/
def wordOfBytes (hi lo : Byte) : Word := hi ++ lo

/-- The byte of a word that is stored at the lower address (R37). -/
def highByte (w : Word) : Byte := w.extractLsb' 8 8

/-- The byte of a word that is stored at the higher address (R37). -/
def lowByte (w : Word) : Byte := w.extractLsb' 0 8

/-- The instruction in the two bytes the fetch reads, lower address first (R37, R43, R56). -/
def decodeBytes (hi lo : Byte) : Except Illegal Instr := decode (wordOfBytes hi lo)

/-- The opcode table's numbering of an instruction's bits as a word: bits at and above `nbits` are zero. One instruction is
one 16-bit word (R51). -/
def tableWord (nbits w : Nat) : Word := BitVec.ofNat 16 (w % 2 ^ nbits)

/-- The instruction the decoder reads from the table's word, laid out in two bytes as the hardware stores them. -/
def decodeTableWord (nbits w : Nat) : Option Instr :=
  (decodeBytes (highByte (tableWord nbits w)) (lowByte (tableWord nbits w))).toOption

/-! ### Encoding (R53, the match column of R55) -/

/-- A register number as its 4-bit field. -/
def regField (x : Reg) : BitVec 4 := BitVec.ofNat 4 x.val

/-- Format A: family and NNN. -/
def formatA (f : BitVec 4) (nnn : Addr) : Word := f ++ nnn

/-- Format XI: family, X and NN. -/
def formatXI (f : BitVec 4) (x : Reg) (nn : Byte) : Word := f ++ (regField x ++ nn)

/-- Formats XY and XYN: family, X, Y and N. -/
def formatXYN (f : BitVec 4) (x y : Reg) (n : Nibble) : Word := f ++ (regField x ++ (regField y ++ n))

/-- The word of an instruction. -/
def encode : Instr → Word
  | .cls => 0x00E0#16
  | .ret => 0x00EE#16
  | .sys nnn => formatA 0x0#4 nnn
  | .jp nnn => formatA 0x1#4 nnn
  | .call nnn => formatA 0x2#4 nnn
  | .sei x nn => formatXI 0x3#4 x nn
  | .snei x nn => formatXI 0x4#4 x nn
  | .ser x y => formatXYN 0x5#4 x y 0x0#4
  | .ldi x nn => formatXI 0x6#4 x nn
  | .addi x nn => formatXI 0x7#4 x nn
  | .mov x y => formatXYN 0x8#4 x y 0x0#4
  | .or x y => formatXYN 0x8#4 x y 0x1#4
  | .and x y => formatXYN 0x8#4 x y 0x2#4
  | .xor x y => formatXYN 0x8#4 x y 0x3#4
  | .add x y => formatXYN 0x8#4 x y 0x4#4
  | .sub x y => formatXYN 0x8#4 x y 0x5#4
  | .shr x y => formatXYN 0x8#4 x y 0x6#4
  | .subn x y => formatXYN 0x8#4 x y 0x7#4
  | .shl x y => formatXYN 0x8#4 x y 0xE#4
  | .sner x y => formatXYN 0x9#4 x y 0x0#4
  | .lda nnn => formatA 0xA#4 nnn
  | .jpv0 nnn => formatA 0xB#4 nnn
  | .rnd x nn => formatXI 0xC#4 x nn
  | .drw x y n => formatXYN 0xD#4 x y n
  | .skp x => formatXI 0xE#4 x 0x9E#8
  | .sknp x => formatXI 0xE#4 x 0xA1#8
  | .lddt x => formatXI 0xF#4 x 0x07#8
  | .wkey x => formatXI 0xF#4 x 0x0A#8
  | .stdt x => formatXI 0xF#4 x 0x15#8
  | .stst x => formatXI 0xF#4 x 0x18#8
  | .adda x => formatXI 0xF#4 x 0x1E#8
  | .glyph x => formatXI 0xF#4 x 0x29#8
  | .bcd x => formatXI 0xF#4 x 0x33#8
  | .stm x => formatXI 0xF#4 x 0x55#8
  | .ldm x => formatXI 0xF#4 x 0x65#8

/-- A row of the opcode table's `match` and `mask` columns (R55). -/
structure TableRow where
  pattern : Word
  mask : Word
deriving DecidableEq, Repr

/-- The instruction's row of the opcode table: every word `w` of the instruction has `w &&& mask = pattern` (R55). -/
def Instr.tableRow : Instr → TableRow
  | .cls => ⟨0x00E0, 0xFFFF⟩
  | .ret => ⟨0x00EE, 0xFFFF⟩
  | .sys _ => ⟨0x0000, 0xF000⟩
  | .jp _ => ⟨0x1000, 0xF000⟩
  | .call _ => ⟨0x2000, 0xF000⟩
  | .sei _ _ => ⟨0x3000, 0xF000⟩
  | .snei _ _ => ⟨0x4000, 0xF000⟩
  | .ser _ _ => ⟨0x5000, 0xF00F⟩
  | .ldi _ _ => ⟨0x6000, 0xF000⟩
  | .addi _ _ => ⟨0x7000, 0xF000⟩
  | .mov _ _ => ⟨0x8000, 0xF00F⟩
  | .or _ _ => ⟨0x8001, 0xF00F⟩
  | .and _ _ => ⟨0x8002, 0xF00F⟩
  | .xor _ _ => ⟨0x8003, 0xF00F⟩
  | .add _ _ => ⟨0x8004, 0xF00F⟩
  | .sub _ _ => ⟨0x8005, 0xF00F⟩
  | .shr _ _ => ⟨0x8006, 0xF00F⟩
  | .subn _ _ => ⟨0x8007, 0xF00F⟩
  | .shl _ _ => ⟨0x800E, 0xF00F⟩
  | .sner _ _ => ⟨0x9000, 0xF00F⟩
  | .lda _ => ⟨0xA000, 0xF000⟩
  | .jpv0 _ => ⟨0xB000, 0xF000⟩
  | .rnd _ _ => ⟨0xC000, 0xF000⟩
  | .drw _ _ _ => ⟨0xD000, 0xF000⟩
  | .skp _ => ⟨0xE09E, 0xF0FF⟩
  | .sknp _ => ⟨0xE0A1, 0xF0FF⟩
  | .lddt _ => ⟨0xF007, 0xF0FF⟩
  | .wkey _ => ⟨0xF00A, 0xF0FF⟩
  | .stdt _ => ⟨0xF015, 0xF0FF⟩
  | .stst _ => ⟨0xF018, 0xF0FF⟩
  | .adda _ => ⟨0xF01E, 0xF0FF⟩
  | .glyph _ => ⟨0xF029, 0xF0FF⟩
  | .bcd _ => ⟨0xF033, 0xF0FF⟩
  | .stm _ => ⟨0xF055, 0xF0FF⟩
  | .ldm _ => ⟨0xF065, 0xF0FF⟩

end Sys2Proof
end

