-- ==== Sys2Proof/Config.lean ====
section
/-! DEFINITION. What the spec leaves to the implementation: the two open inputs of the step (spec/00_scope.md R7,
spec/93_implementation_defined.md U1, U2), as constants without a body, and the two readings of the flag-producing
instructions that U3 asks a model to name. -/

namespace Sys2Proof

/-- `RandByte()`: the byte drawn when `n` free values have been drawn before it (R7, R83, D12). No body: it may be any
byte at every draw. Log entry 1, DESIGN CHOICE in form, safe. -/
opaque Config.randByte (n : Nat) : Byte

/-- The choice behind `KeySel(S)` when `n` free values have been drawn before it (R7, R112, D11). No body: any number.
The machine reduces it to a position in the list of held keys, so every held key can be chosen and no other. Log entry 2,
DESIGN CHOICE in form, safe. -/
opaque Config.keyChoice (n : Nat) : Nat

/-- `VF_ORDER` of U3: which of the two register writes of ADD, SUB, SHR, SUBN and SHL comes first. -/
inductive VfOrder where
  /-- The spec's reading (R84): the flag is written first and the result re-reads the register file. -/
  | flagFirst
  /-- The reading R84 set aside: both values come from the old registers and the flag is written last. -/
  | flagLast
deriving DecidableEq, Repr

end Sys2Proof
end

