-- ==== Sys2Proof/Machine/State.lean ====
section
/-! DEFINITION. The core's whole state as plain data (spec/10_state.md R13), its reset value (R32, R153), and the reasons a
step could stop. -/

namespace Sys2Proof.Machine

/-- The five error kinds (spec/60_exceptions.md R123). They are values of the `FAULT` latch, not stops of the model: raising
one is a next state (R126). -/
inductive ErrorKind where
  /-- Code 1, raised by CALL when 16 entries are on the stack. -/
  | stackOverflow
  /-- Code 2, raised by RET when the stack is empty. -/
  | stackUnderflow
  /-- Code 3, raised by the fetch and by DRW, BCD, STM and LDM when an address is above 4095. -/
  | outOfBoundsMemoryAccess
  /-- Code 4, raised by the host's `Load` of more than 3584 bytes. -/
  | programTooLarge
  /-- Code 5, raised by the decode of an illegal word. -/
  | unknownOpcode
deriving DecidableEq, Repr

/-- The reasons the model stops with a fault: NONE. Every error of the core is an entry the spec describes (R126) and so a
next state with `FAULT` latched, and a dead core's step is a next state too (R127). Nobody raises one. -/
inductive Fault where
deriving DecidableEq, Repr

/-- The reasons the model refuses. -/
inductive Refusal where
  /-- Raised only by an arm of `exec` whose instruction has no meaning yet, with its mnemonic. No arm does. Safe. -/
  | notModelled (mnemonic : String)
deriving DecidableEq, Repr

/-- Memory: the listed (address, byte) pairs. An address that is not listed holds `Memory.unlisted`. The canonical form is
`Memory.wf`. -/
abbrev Memory := List Host.Cell

/-- The display: 32 rows of 64 pixels, row first, `true` for a set pixel (R25). -/
abbrev Display := Vector (Vector Bool 64) 32

/-- The state of the core (R13). Every field but `draws` is an item of R13's table. -/
structure State where
  /-- `V[0..15]` (R14, R15). -/
  v : Vector Byte 16
  /-- `I`, all 16 bits kept (R17). -/
  i : Word
  /-- `PC` (R18). -/
  pc : Word
  /-- `STACK[0..15]` (R21). -/
  stack : Vector Word 16
  /-- `SP`, the number of valid entries, 0 to 16 (R21). -/
  sp : Fin 17
  /-- `DT`, the delay timer (R23). -/
  dt : Byte
  /-- `ST`, the sound timer (R23). -/
  st : Byte
  /-- `KEYS`, bit k set when key k is held (R24). -/
  keys : BitVec 16
  /-- `FB` (R25). -/
  fb : Display
  /-- `REDRAW` (R26). -/
  redraw : Bool
  /-- `MEM` (R28, R35). -/
  mem : Memory
  /-- `FAULT`, `none` for a live core (R27). -/
  fault : Option ErrorKind
  /-- The MODEL's own field: how many free values have been drawn, so that each draw is a fresh one (R7, R31). Log entry 1. -/
  draws : Nat
deriving DecidableEq, Repr

/-- What one step or one instruction answers. -/
abbrev Result := Host.Outcome State Fault Refusal

/-- A display with every pixel unset (R32). -/
def Display.blank : Display := Vector.replicate 32 (Vector.replicate 64 false)

/-- The state after `Reset` and at power-on (R32, R153). `draws` = 0 is the model's choice, log entry 1. -/
def State.reset : State where
  v := Vector.replicate 16 0#8
  i := 0x0000#16
  pc := 0x0200#16
  stack := Vector.replicate 16 0#16
  sp := 0
  dt := 0#8
  st := 0#8
  keys := 0#16
  fb := Display.blank
  redraw := false
  mem := []
  fault := none
  draws := 0

end Sys2Proof.Machine
end

