-- ==== Sys2Proof/Machine/Ops.lean ====
section
/-! DEFINITION. The named operations over registers, memory, the return stack, the display and the keys, and raising an
error (spec/00_scope.md R9). -/

namespace Sys2Proof.Machine

/-! ### Memory (spec/20_memory.md) -/

/-- The size of `MEM` in bytes (R6, R35). -/
def memSize : Nat := 4096

/-- What an address that is not listed reads as: its reset value (R32, R33). -/
def Memory.unlisted : Byte := 0x00#8

/-- The byte at an address. -/
def Memory.read : Memory → Nat → Byte
  | [], _ => Memory.unlisted
  | (b, w) :: m, a => if b = a then w else Memory.read m a

/-- The memory without an entry for address `a`. -/
def Memory.erase (m : Memory) (a : Nat) : Memory := m.filter fun c => c.1 != a

/-- The memory with an entry for `a` placed before the first higher address. -/
def Memory.insert : Memory → Nat → Byte → Memory
  | [], a, v => [(a, v)]
  | (b, w) :: m, a, v => if a < b then (a, v) :: (b, w) :: m else (b, w) :: Memory.insert m a v

/-- Write one byte. The value an unlisted address reads as leaves no entry, so equal memories are equal lists. -/
def Memory.write (m : Memory) (a : Nat) (v : Byte) : Memory :=
  if v = Memory.unlisted then m.erase a else (m.erase a).insert a v

/-- The canonical form from address `lo` on: addresses strictly rising, inside `MEM`, no entry equal to the unlisted value. -/
def Memory.wfFrom : Nat → Memory → Bool
  | _, [] => true
  | lo, (a, v) :: m => decide (lo ≤ a) && decide (a < memSize) && (v != Memory.unlisted) && Memory.wfFrom (a + 1) m

/-- The canonical form of memory. -/
def Memory.wf (m : Memory) : Bool := m.wfFrom 0

/-- Write bytes at `a`, `a + 1`, … in that order (R36, R44). -/
def Memory.writeBytes : Memory → Nat → List Byte → Memory
  | m, _, [] => m
  | m, a, v :: vs => Memory.writeBytes (m.write a v) (a + 1) vs

/-- The `n` bytes at `a`, `a + 1`, … -/
def Memory.readBytes (m : Memory) : Nat → Nat → List Byte
  | _, 0 => []
  | a, n + 1 => m.read a :: Memory.readBytes m (a + 1) n

/-- Whether the `n` bytes from `a` on all lie in 0 to 4095: the effective address is a plain integer, never reduced (R38,
R39). No byte at all is always in bounds (spec/45_display.md R108). -/
def inBounds (a n : Nat) : Bool := n == 0 || decide (a + n ≤ memSize)

/-- `MemRead` of a block: every address is checked before the first access, `none` where one is out of bounds (R38, R39). -/
def Memory.load (m : Memory) (a n : Nat) : Option (List Byte) :=
  if inBounds a n then some (m.readBytes a n) else none

/-- `MemWrite` of a block: every address is checked before the first write, `none` where one is out of bounds (R38, R39). -/
def Memory.store (m : Memory) (a : Nat) (vs : List Byte) : Option Memory :=
  if inBounds a vs.length then some (m.writeBytes a vs) else none

/-! ### Registers -/

/-- `V[x]` (R9, R14). -/
def State.getV (s : State) (x : Reg) : Byte := s.v[x]

/-- `V[x] <- b` (R9). -/
def State.setV (s : State) (x : Reg) (b : Byte) : State := { s with v := s.v.set x b }

/-- `I <- a`. -/
def State.setI (s : State) (a : Word) : State := { s with i := a }

/-- `PC <- a`. Targets are not checked when they are written (spec/40_control.md R69). -/
def State.setPc (s : State) (a : Word) : State := { s with pc := a }

/-- `DT <- b`. -/
def State.setDt (s : State) (b : Byte) : State := { s with dt := b }

/-- `ST <- b`. -/
def State.setSt (s : State) (b : Byte) : State := { s with st := b }

/-- `MEM` replaced as a whole by the result of a block store. -/
def State.setMem (s : State) (m : Memory) : State := { s with mem := m }

/-- `REDRAW <- b`. -/
def State.setRedraw (s : State) (b : Bool) : State := { s with redraw := b }

/-- Write consecutive registers from number `k` on (spec/48_memops.md R121). -/
def State.setRegs : State → Nat → List Byte → State
  | s, _, [] => s
  | s, k, b :: bs => State.setRegs (s.setV (Fin.ofNat 16 k) b) (k + 1) bs

/-- The values of V0 to VX in order (spec/48_memops.md R120). -/
def State.regsUpTo (s : State) (x : Reg) : List Byte :=
  (List.range (x.val + 1)).map fun k => s.getV (Fin.ofNat 16 k)

/-! ### Errors -/

/-- `raise K`: `FAULT <- K` and nothing else; the operation that raises ends with it (spec/60_exceptions.md R126). -/
def State.raise (s : State) (k : ErrorKind) : State := { s with fault := some k }

/-- The codes of the `FAULT` latch (R123). There is no return from an error to model beside `raise`: only the host's `Reset`
leaves the dead state (R131; `hostReset` in Machine/HostOps.lean). -/
def faultCode : Option ErrorKind → Nat
  | none => 0
  | some .stackOverflow => 1
  | some .stackUnderflow => 2
  | some .outOfBoundsMemoryAccess => 3
  | some .programTooLarge => 4
  | some .unknownOpcode => 5

/-! ### The return stack (spec/10_state.md R21, R22) -/

/-- `STACK[k]`. -/
def State.stackAt (s : State) (k : Fin 16) : Word := s.stack[k]

/-- `Push(a)`: `none` where it raises `StackOverflow`, that is, where `SP` = 16 (R22). -/
def State.push (s : State) (a : Word) : Option State :=
  if h : s.sp.val < 16 then
    some { s with stack := s.stack.set s.sp.val a, sp := ⟨s.sp.val + 1, by omega⟩ }
  else none

/-- `Pop()`: the popped entry and the state after, `none` where it raises `StackUnderflow`, that is, where `SP` = 0. The
entry keeps its value in the array (R22). -/
def State.pop (s : State) : Option (Word × State) :=
  if h : 0 < s.sp.val then
    some (s.stack[s.sp.val - 1]'(by omega), { s with sp := ⟨s.sp.val - 1, by omega⟩ })
  else none

/-! ### The display (spec/45_display.md R100, R104) -/

/-- `FB[y][x]`. -/
def State.getPixel (s : State) (x : Fin 64) (y : Fin 32) : Bool := s.fb[y][x]

/-- `FB[y][x] <- b`. -/
def State.setPixel (s : State) (x : Fin 64) (y : Fin 32) (b : Bool) : State :=
  { s with fb := s.fb.set y (s.fb[y].set x b) }

/-- The column a sprite bit lands in: each coordinate is reduced on its own (R104). -/
def pixelColumn (x0 : Byte) (bit : Nat) : Fin 64 := Fin.ofNat 64 (x0.toNat + bit)

/-- The row a sprite byte lands in (R104). -/
def pixelRow (y0 : Byte) (row : Nat) : Fin 32 := Fin.ofNat 32 (y0.toNat + row)

/-- Sprite bit number `bit` of a row byte, most significant first (R102). -/
def spriteBit (b : Byte) (bit : Nat) : Bool := b.getLsbD (7 - bit)

/-! ### Keys (spec/46_keys.md R109, R112) -/

/-- "k is in KEYS": `k <= 15` and bit `k` of `KEYS` is 1 (R109). The whole byte is compared. -/
def keyHeld (keys : BitVec 16) (k : Byte) : Bool := decide (k.toNat ≤ 15) && keys.getLsbD k.toNat

/-- The held keys. -/
def heldKeys (keys : BitVec 16) : List Nat := (List.range 16).filter fun k => keys.getLsbD k

/-- `KeySel(S)`: the held key at the position a free choice picks (R7, R112). The position is reduced to the list's length,
so the answer is a held key, and every held key is the answer for some choice. -/
def keySel (keys : BitVec 16) (choice : Nat) : Byte :=
  BitVec.ofNat 8 ((heldKeys keys).getD (choice % (heldKeys keys).length) 0)

/-! ### Free values (spec/00_scope.md R7, spec/10_state.md R31) -/

/-- One more free value has been drawn. -/
def State.drawn (s : State) : State := { s with draws := s.draws + 1 }

/-- `RandByte()` of this step. -/
def State.randByte (s : State) : Byte := Config.randByte s.draws

/-- The choice behind `KeySel` of this step. -/
def State.keyChoice (s : State) : Nat := Config.keyChoice s.draws

end Sys2Proof.Machine
end

