-- ==== Sys2Proof/Machine/Flags.lean ====
section
/-! DEFINITION. The flag computations and the order of the two register writes of ADD, SUB, SHR, SUBN and SHL
(spec/43_alu.md R84, R85, R90 to R95). -/

namespace Sys2Proof.Machine

/-- A flag's value in VF: always 0 or 1 (R15). -/
def flagByte (c : Bool) : Byte := if c then 1#8 else 0#8

/-- Carry: the true sum exceeds 255 (R85, R90). -/
def carryFlag (a b : Byte) : Bool := decide (a.toNat + b.toNat > 255)

/-- Not borrow: the minuend is at least the subtrahend (R85, R91, R93). -/
def notBorrowFlag (minuend subtrahend : Byte) : Bool := decide (minuend.toNat ≥ subtrahend.toNat)

/-- The bit SHR shifts out (R92). -/
def shrFlag (a : Byte) : Bool := a.getLsbD 0

/-- The bit SHL shifts out: bit 7, as R94 and conflict C3 of spec/90_conflicts.md decide. Log entry 5. -/
def shlFlag (a : Byte) : Bool := a.getLsbD 7

/-- `VF_ORDER` (spec/93_implementation_defined.md U3): the spec's reading, flag first (R84, conflict C10). Log entry 3. -/
def vfOrder : VfOrder := .flagFirst

/-- The two register writes of a flag-producing instruction. `flag` reads the registers the instruction found; `result`
reads the register file as it stands when the result is formed (R84). -/
def State.setFlagAndResult (s : State) (x : Reg) (flag : State → Bool) (result : State → Byte) : State :=
  match vfOrder with
  | .flagFirst =>
    let s1 := s.setV vf (flagByte (flag s))
    s1.setV x (result s1)
  | .flagLast => (s.setV x (result s)).setV vf (flagByte (flag s))

end Sys2Proof.Machine
end

