-- ==== Sys2Proof/Machine/Alu.lean ====
section
/-! DEFINITION. MOV, OR, AND, XOR, ADD, SUB, SHR, SUBN, SHL (spec/43_alu.md). -/

namespace Sys2Proof.Machine

/-- MOV `Vx, Vy` (R86). -/
def execMov (x y : Reg) (s : State) : Result := .next (s.setV x (s.getV y))

/-- OR `Vx, Vy`, VF left as it was (R87). -/
def execOr (x y : Reg) (s : State) : Result := .next (s.setV x (s.getV x ||| s.getV y))

/-- AND `Vx, Vy`, VF left as it was (R88). -/
def execAnd (x y : Reg) (s : State) : Result := .next (s.setV x (s.getV x &&& s.getV y))

/-- XOR `Vx, Vy`, VF left as it was (R89). -/
def execXor (x y : Reg) (s : State) : Result := .next (s.setV x (s.getV x ^^^ s.getV y))

/-- ADD `Vx, Vy` (R90, R95). -/
def execAdd (x y : Reg) (s : State) : Result :=
  .next (s.setFlagAndResult x (fun t => carryFlag (t.getV x) (t.getV y)) (fun t => t.getV x + t.getV y))

/-- SUB `Vx, Vy` (R91, R95). -/
def execSub (x y : Reg) (s : State) : Result :=
  .next (s.setFlagAndResult x (fun t => notBorrowFlag (t.getV x) (t.getV y)) (fun t => t.getV x - t.getV y))

/-- SHR `Vx`; `Y` is ignored (R92, R95). -/
def execShr (x _y : Reg) (s : State) : Result :=
  .next (s.setFlagAndResult x (fun t => shrFlag (t.getV x)) (fun t => t.getV x >>> 1))

/-- SUBN `Vx, Vy` (R93, R95). -/
def execSubn (x y : Reg) (s : State) : Result :=
  .next (s.setFlagAndResult x (fun t => notBorrowFlag (t.getV y) (t.getV x)) (fun t => t.getV y - t.getV x))

/-- SHL `Vx`; `Y` is ignored (R94, R95). -/
def execShl (x _y : Reg) (s : State) : Result :=
  .next (s.setFlagAndResult x (fun t => shlFlag (t.getV x)) (fun t => t.getV x <<< 1))

end Sys2Proof.Machine
end

