-- ==== Sys2Proof/Machine/Operands.lean ====
section
/-! DEFINITION. The operand forms: every operand is the unsigned value of its field (spec/30_encoding.md R54), the one
addressing mode is `I` plus a small offset (spec/48_memops.md R118), and the only conditional control flow is the skip
(spec/41_skip.md R75). -/

namespace Sys2Proof.Machine

/-- `zext_16(NNN)` (R9, R54). -/
def addrOperand (nnn : Addr) : Word := nnn.setWidth 16

/-- `zext_16(b)` of a register's value (R9). -/
def byteOperand (b : Byte) : Word := b.setWidth 16

/-- The base address of a data access, a plain integer (spec/20_memory.md R39). -/
def State.base (s : State) : Nat := s.i.toNat

/-- `PC <- (PC + 2) mod 65536` when the condition holds, else nothing (R75). -/
def State.skipIf (s : State) (c : Bool) : State := if c then s.setPc (s.pc + 2#16) else s

/-- `PC <- (PC - 2) mod 65536`: back to the address of the instruction in progress (spec/46_keys.md R112). -/
def State.rewind (s : State) : State := s.setPc (s.pc - 2#16)

/-- The hundreds, tens and units digits of a byte, each a byte of its own (spec/48_memops.md R119). -/
def bcdDigits (b : Byte) : List Byte :=
  [BitVec.ofNat 8 (b.toNat / 100), BitVec.ofNat 8 (b.toNat / 10 % 10), BitVec.ofNat 8 (b.toNat % 10)]

end Sys2Proof.Machine
end

