-- ==== Sys2Proof/Machine/Control.lean ====
section
/-! DEFINITION. SYS, RET, JP, CALL, JPV0 (spec/40_control.md). Every meaning runs with `PC` already advanced by the fetch
(R69). -/

namespace Sys2Proof.Machine

/-- SYS `nnn`: nothing; `NNN` is ignored (R70). -/
def execSys (_nnn : Addr) (s : State) : Result := .next s

/-- RET: `PC <- Pop()`, or `StackUnderflow` on an empty stack with `SP` and `PC` as the fetch left them (R71). -/
def execRet (s : State) : Result :=
  match s.pop with
  | some (target, s1) => .next (s1.setPc target)
  | none => .next (s.raise .stackUnderflow)

/-- JP `nnn` (R72). -/
def execJp (nnn : Addr) (s : State) : Result := .next (s.setPc (addrOperand nnn))

/-- CALL `nnn`: push the advanced `PC`, then jump, or `StackOverflow` on a full stack with nothing pushed and no jump (R73). -/
def execCall (nnn : Addr) (s : State) : Result :=
  match s.push s.pc with
  | some s1 => .next (s1.setPc (addrOperand nnn))
  | none => .next (s.raise .stackOverflow)

/-- JPV0 `nnn`: the register is always V0 (R74). -/
def execJpv0 (nnn : Addr) (s : State) : Result := .next (s.setPc (addrOperand nnn + byteOperand (s.getV 0)))

end Sys2Proof.Machine
end

