-- ==== Sys2Proof/Machine/Display.lean ====
section
/-! DEFINITION. CLS, DRW and the sprite-compositing unit (spec/45_display.md). -/

namespace Sys2Proof.Machine

/-- CLS: every pixel unset, `REDRAW` set on every execution, VF untouched (R101). -/
def execCls (s : State) : Result := .next { s with fb := Display.blank, redraw := true }

/-- One sprite bit with the pixel it lands on. -/
structure SpriteDot where
  px : Fin 64
  py : Fin 32
  bit : Bool
deriving DecidableEq, Repr

/-- The eight dots of sprite byte `b` on sprite row `row`, most significant bit first (R102, R104). -/
def spriteRow (x0 y0 : Byte) (row : Nat) (b : Byte) : List SpriteDot :=
  (List.range 8).map fun bit => ⟨pixelColumn x0 bit, pixelRow y0 row, spriteBit b bit⟩

/-- The dots of a sprite in the order the loops of R102 visit them; the first byte stands on sprite row `row`. -/
def spriteDots (x0 y0 : Byte) : Nat → List Byte → List SpriteDot
  | _, [] => []
  | row, b :: bs => spriteRow x0 y0 row b ++ spriteDots x0 y0 (row + 1) bs

/-- One dot: xor, `REDRAW` when the pixel changed (R106, conflict C2), VF := 1 when it went from set to unset (R105). -/
def State.plot (s : State) (d : SpriteDot) : State :=
  let old := s.getPixel d.px d.py
  let s1 := s.setPixel d.px d.py (old ^^ d.bit)
  let s2 := if d.bit then s1.setRedraw true else s1
  if d.bit && old then s2.setV vf 1#8 else s2

/-- The dots one after another (R102). -/
def State.plotAll : State → List SpriteDot → State
  | s, [] => s
  | s, d :: ds => State.plotAll (s.plot d) ds

/-- DRW `Vx, Vy, n`. `V[X]`, `V[Y]` and `I` are sampled before anything is written, and the bounds check on all `N` bytes
comes before the VF reset (R102, R103; log entry 4). With `N` = 0 nothing is read and only VF is written (R108). -/
def execDrw (x y : Reg) (n : Nibble) (s : State) : Result :=
  match s.mem.load s.base n.toNat with
  | some bytes => .next ((s.setV vf 0#8).plotAll (spriteDots (s.getV x) (s.getV y) 0 bytes))
  | none => .next (s.raise .outOfBoundsMemoryAccess)

end Sys2Proof.Machine
end

