-- ==== Sys2Proof/Machine/Immediate.lean ====
section
/-! DEFINITION. LDI, ADDI, RND (spec/42_immediate.md). None writes VF as a flag (R80). -/

namespace Sys2Proof.Machine

/-- LDI `Vx, nn` (R81). -/
def execLdi (x : Reg) (nn : Byte) (s : State) : Result := .next (s.setV x nn)

/-- ADDI `Vx, nn`: wraps modulo 256, no carry recorded (R82). -/
def execAddi (x : Reg) (nn : Byte) (s : State) : Result := .next (s.setV x (s.getV x + nn))

/-- RND `Vx, nn`: a fresh free byte masked by `NN` (R83). Log entry 1. -/
def execRnd (x : Reg) (nn : Byte) (s : State) : Result := .next ((s.setV x (s.randByte &&& nn)).drawn)

end Sys2Proof.Machine
end

