-- ==== Sys2Proof/Machine/Index.lean ====
section
/-! DEFINITION. LDA, ADDA, GLYPH (spec/44_index.md), the only writers of `I` (R96). -/

namespace Sys2Proof.Machine

/-- LDA `nnn` (R97). -/
def execLda (nnn : Addr) (s : State) : Result := .next (s.setI (addrOperand nnn))

/-- ADDA `Vx`: 16 bits, no flag (R98). -/
def execAdda (x : Reg) (s : State) : Result := .next (s.setI (s.i + byteOperand (s.getV x)))

/-- GLYPH `Vx`: all 8 bits of the register times 5 (R99). -/
def execGlyph (x : Reg) (s : State) : Result := .next (s.setI (byteOperand (s.getV x) * 5#16))

end Sys2Proof.Machine
end

