-- ==== Sys2Proof/Machine/Keys.lean ====
section
/-! DEFINITION. SKP, SKNP, WKEY (spec/46_keys.md). -/

namespace Sys2Proof.Machine

/-- SKP `Vx` (R110). -/
def execSkp (x : Reg) (s : State) : Result := .next (s.skipIf (keyHeld s.keys (s.getV x)))

/-- SKNP `Vx` (R111). -/
def execSknp (x : Reg) (s : State) : Result := .next (s.skipIf (!keyHeld s.keys (s.getV x)))

/-- WKEY `Vx`: some held key, or, with none held, back to this instruction's own address (R112, R113). Log entry 2. -/
def execWkey (x : Reg) (s : State) : Result :=
  if s.keys = 0#16 then .next s.rewind
  else .next ((s.setV x (keySel s.keys s.keyChoice)).drawn)

end Sys2Proof.Machine
end

