-- ==== Sys2Proof/Machine/MemOps.lean ====
section
/-! DEFINITION. BCD, STM, LDM (spec/48_memops.md). All bounds checks come before the first write, and `I` is never modified
(R118). -/

namespace Sys2Proof.Machine

/-- Store bytes at `I` upward, or `OutOfBoundsMemoryAccess` with nothing stored (R118). -/
def State.storeAtI (s : State) (bytes : List Byte) : State :=
  match s.mem.store s.base bytes with
  | some m => s.setMem m
  | none => s.raise .outOfBoundsMemoryAccess

/-- BCD `Vx` (R119). -/
def execBcd (x : Reg) (s : State) : Result := .next (s.storeAtI (bcdDigits (s.getV x)))

/-- STM `Vx`: V0 to VX, both included (R120). -/
def execStm (x : Reg) (s : State) : Result := .next (s.storeAtI (s.regsUpTo x))

/-- LDM `Vx`: V0 to VX, both included (R121). -/
def execLdm (x : Reg) (s : State) : Result :=
  match s.mem.load s.base (x.val + 1) with
  | some bytes => .next (s.setRegs 0 bytes)
  | none => .next (s.raise .outOfBoundsMemoryAccess)

end Sys2Proof.Machine
end

