-- ==== Sys2Proof/Machine/Skip.lean ====
section
/-! DEFINITION. SEI, SNEI, SER, SNER (spec/41_skip.md). -/

namespace Sys2Proof.Machine

/-- SEI `Vx, nn` (R76). -/
def execSei (x : Reg) (nn : Byte) (s : State) : Result := .next (s.skipIf (s.getV x == nn))

/-- SNEI `Vx, nn` (R77). -/
def execSnei (x : Reg) (nn : Byte) (s : State) : Result := .next (s.skipIf (s.getV x != nn))

/-- SER `Vx, Vy` (R78). -/
def execSer (x y : Reg) (s : State) : Result := .next (s.skipIf (s.getV x == s.getV y))

/-- SNER `Vx, Vy` (R79). -/
def execSner (x y : Reg) (s : State) : Result := .next (s.skipIf (s.getV x != s.getV y))

end Sys2Proof.Machine
end

