-- ==== Sys2Proof/Machine/Timers.lean ====
section
/-! DEFINITION. LDDT, STDT, STST (spec/47_timers.md). -/

namespace Sys2Proof.Machine

/-- LDDT `Vx` (R115). -/
def execLddt (x : Reg) (s : State) : Result := .next (s.setV x s.dt)

/-- STDT `Vx` (R116). -/
def execStdt (x : Reg) (s : State) : Result := .next (s.setDt (s.getV x))

/-- STST `Vx` (R117). -/
def execStst (x : Reg) (s : State) : Result := .next (s.setSt (s.getV x))

end Sys2Proof.Machine
end

