-- ==== Sys2Proof/Machine/HostOps.lean ====
section
/-! DEFINITION. The host's operations other than `Step`, the read-only outputs, and the fetch (spec/60_exceptions.md R134 to
R144, spec/20_memory.md R43). Each operation is one atomic change of the state (R145). -/

namespace Sys2Proof.Machine

/-! ### Fetch -/

/-- The two bytes at `PC` and the state with `PC` advanced by 2; `none` where `PC` or `PC + 1` is above 4095 (R43). -/
def State.fetch (s : State) : Option (Byte × Byte × State) :=
  match s.mem.load s.pc.toNat 2 with
  | some [hi, lo] => some (hi, lo, s.setPc (s.pc + 2#16))
  | _ => none

/-! ### Operations -/

/-- A dead core ignores every operation but `Reset` (R127). -/
def State.ifLive (s : State) (op : State → State) : State :=
  match s.fault with
  | none => op s
  | some _ => s

/-- The address `Load` copies to (R6, R136). -/
def progBase : Nat := 0x200

/-- The largest image `Load` accepts, in bytes (R6, R136). -/
def progMax : Nat := 3584

/-- `Reset` (R135). The model's counter of draws goes on, so that the draws after a reset are fresh ones too (R31; log entry
1). -/
def hostReset (s : State) : State := { State.reset with draws := s.draws }

/-- `Load(bytes)` (R136). -/
def hostLoad (bytes : List Byte) (s : State) : State :=
  s.ifLive fun t =>
    if bytes.length > progMax then t.raise .programTooLarge else t.setMem (t.mem.writeBytes progBase bytes)

/-- One count-down, clamped at 0 (R23, R138). -/
def countDown (b : Byte) : Byte := if b.toNat > 0 then b - 1#8 else b

/-- `TickTimers` (R138). -/
def hostTickTimers (s : State) : State := s.ifLive fun t => (t.setDt (countDown t.dt)).setSt (countDown t.st)

/-- `KEYS` with key `k` held or released (R139). -/
def keysWith (keys : BitVec 16) (k : Key) (pressed : Bool) : BitVec 16 :=
  if pressed then keys ||| (1#16 <<< k.val) else keys &&& ~~~(1#16 <<< k.val)

/-- `SetKey(k, pressed)` (R139). -/
def hostSetKey (k : Key) (pressed : Bool) (s : State) : State :=
  s.ifLive fun t => { t with keys := keysWith t.keys k pressed }

/-- `ClearRedraw` (R140). -/
def hostClearRedraw (s : State) : State := s.ifLive fun t => t.setRedraw false

/-! ### Outputs, readable on a dead core too (R127) -/

/-- The display, read-only to the host (R141). -/
def displayOut (s : State) : Display := s.fb

/-- The redraw signal (R142). -/
def redrawOut (s : State) : Bool := s.redraw

/-- The sound timer's value (R143). -/
def soundOut (s : State) : Byte := s.st

/-- "Tone should be playing": `ST > 0` (R143). -/
def toneOut (s : State) : Bool := decide (s.st.toNat > 0)

/-- The fault latch (R144). -/
def faultOut (s : State) : Option ErrorKind := s.fault

end Sys2Proof.Machine
end

