-- ==== Sys2Proof/Machine/Cycle.lean ====
section
/-! DEFINITION. The step cycle (spec/30_encoding.md R64) and where the next instruction is placed. -/

namespace Sys2Proof.Machine

/-- The step of a live core: fetch, decode, execute; an earlier phase's error ends the step (R64, R125, R128). -/
def stepLive (s : State) : Result :=
  match s.fetch with
  | none => .next (s.raise .outOfBoundsMemoryAccess)
  | some (hi, lo, s1) =>
    match decodeBytes hi lo with
    | .error _ => .next (s1.raise .unknownOpcode)
    | .ok i => exec i s1

/-- `Step()` (R64): a dead core changes nothing (R127). -/
def stepCycle (s : State) : Result :=
  match s.fault with
  | some _ => .next s
  | none => stepLive s

/-- The state with a word stored where the next step fetches it, high byte first (R37, R43). The fetch needs a live core and
a fetchable `PC`; only where those are missing are they set, to `None` and to the program base. It stands for the host's
`Load` (R136; log entry 8). -/
def State.placeWord (s : State) (w : Word) : State :=
  let pc := if s.pc.toNat ≤ 0x0FFE then s.pc else 0x0200#16
  { s with pc := pc, fault := none, mem := s.mem.writeBytes pc.toNat [highByte w, lowByte w] }

end Sys2Proof.Machine
end

