-- ==== Sys2Proof/Machine/Step.lean ====
section
/-! DEFINITION. The step function, the host's `Step` operation (spec/30_encoding.md R64), and the state in which the next
step fetches a given word. -/

namespace Sys2Proof.Machine

/-- `Step` (R64, R137). -/
def step (s : State) : Host.Outcome State Fault Refusal := stepCycle s

/-- The state with the opcode table's word stored where `step` fetches its next instruction. -/
def State.withFetchWord (s : State) (nbits w : Nat) : State := s.placeWord (tableWord nbits w)

end Sys2Proof.Machine
end

