-- ==== Sys2Proof/Machine/Platform.lean ====
section
/-! DEFINITION. A run of the core: any sequence of host operations, `Step` among them, each applied to the state the one
before left (spec/00_scope.md R11, spec/60_exceptions.md R134, R145). -/

namespace Sys2Proof.Machine

/-- The six operations of R134. -/
inductive HostOp where
  | reset
  | load (bytes : List Byte)
  | step
  | tickTimers
  | setKey (k : Key) (pressed : Bool)
  | clearRedraw
deriving DecidableEq, Repr

/-- One operation (R134 to R140). -/
def perform (o : HostOp) (s : State) : Result :=
  match o with
  | .reset => .next (hostReset s)
  | .load bytes => .next (hostLoad bytes s)
  | .step => step s
  | .tickTimers => .next (hostTickTimers s)
  | .setKey k pressed => .next (hostSetKey k pressed s)
  | .clearRedraw => .next (hostClearRedraw s)

/-- A sequence of operations, first first (R145). -/
def performAll : List HostOp → State → Result
  | [], s => .next s
  | o :: os, s =>
    match perform o s with
    | .next t => performAll os t
    | .fault r => .fault r
    | .refused r => .refused r

end Sys2Proof.Machine
end

