-- ==== Sys2Proof/Safety.lean ====
section
/-! DEFINITION. What claims are stated in: live and dead cores, the end of a run, the invariant of every run, which parts of
the state two states share, and the spec's tables of what each instruction may do to `PC`, the registers and `FAULT`. -/

namespace Sys2Proof.Machine

/-! ### Single states -/

/-- A live core: `FAULT` is `None` (spec/10_state.md R27). -/
abbrev State.live (s : State) : Prop := s.fault = none

/-- The next fetch is in bounds (spec/20_memory.md R43). -/
abbrev State.fetchable (s : State) : Prop := s.pc.toNat ≤ 0x0FFE

/-- The instruction word at `PC` (R37), meaningful where `PC` is fetchable. -/
def State.nextWord (s : State) : Word := wordOfBytes (s.mem.read s.pc.toNat) (s.mem.read (s.pc.toNat + 1))

/-- The newest stack entry, `STACK[SP-1]`, meaningful where `SP` is not 0 (spec/10_state.md R21). -/
def State.top (s : State) : Word := s.stackAt (Fin.ofNat 16 (s.sp.val - 1))

/-- The end of a run by the spec's convention: a live core with a JP to itself at `PC` (spec/60_exceptions.md R152). -/
def State.ended (s : State) : Prop :=
  s.live ∧ s.fetchable ∧ ∃ nnn : Addr, decode s.nextWord = .ok (.jp nnn) ∧ nnn.toNat = s.pc.toNat

/-- The invariant of every run: memory is in canonical form, `PC` is at most 0x10FE so that its arithmetic never wraps, and
every valid stack entry is the address after a fetched CALL (spec/10_state.md R20, R21). -/
structure State.Inv (s : State) : Prop where
  memory : s.mem.wf = true
  pc : s.pc.toNat ≤ 0x10FE
  stack : ∀ k : Fin 16, k.val < s.sp.val → 2 ≤ (s.stackAt k).toNat ∧ (s.stackAt k).toNat ≤ 0x1000

/-! ### Pairs of states -/

/-- Every byte of memory reads the same. -/
def sameMemory (s t : State) : Prop := ∀ a, t.mem.read a = s.mem.read a

/-- Every register but those in `changed` holds the same value. -/
def sameRegsBut (changed : List Reg) (s t : State) : Prop := ∀ r, r ∉ changed → t.getV r = s.getV r

/-- The return stack, entries and pointer, is the same. -/
def sameStack (s t : State) : Prop := t.stack = s.stack ∧ t.sp = s.sp

/-- Both timers are the same. -/
def sameTimers (s t : State) : Prop := t.dt = s.dt ∧ t.st = s.st

/-- The display and the redraw flag are the same. -/
def sameDisplay (s t : State) : Prop := t.fb = s.fb ∧ t.redraw = s.redraw

/-- Nothing but the general registers in `changed` and `PC` differs, the model's count of free draws left aside. -/
def onlyRegs (changed : List Reg) (s t : State) : Prop :=
  sameRegsBut changed s t ∧ t.i = s.i ∧ sameStack s t ∧ sameTimers s t ∧ t.keys = s.keys ∧ sameDisplay s t ∧
    sameMemory s t ∧ t.fault = s.fault

/-- The two states agree but for stack entries at and above `SP`, which are not valid (spec/10_state.md R21, R22). -/
def sameButStale (s s' : State) : Prop :=
  s' = { s with stack := s'.stack } ∧ ∀ k : Fin 16, k.val < s.sp.val → s'.stackAt k = s.stackAt k

/-! ### The spec's tables -/

/-- The table of spec/10_state.md R19: `PC` after an instruction that raises nothing, fetched at address `a`, from the state
`s` it was fetched in. -/
def pcAfter (a : Nat) (i : Instr) (s : State) : Nat :=
  match i with
  | .jp nnn => nnn.toNat
  | .call nnn => nnn.toNat
  | .jpv0 nnn => nnn.toNat + (s.getV 0).toNat
  | .ret => s.top.toNat
  | .sei x nn => if s.getV x = nn then a + 4 else a + 2
  | .snei x nn => if s.getV x ≠ nn then a + 4 else a + 2
  | .ser x y => if s.getV x = s.getV y then a + 4 else a + 2
  | .sner x y => if s.getV x ≠ s.getV y then a + 4 else a + 2
  | .skp x => if keyHeld s.keys (s.getV x) = true then a + 4 else a + 2
  | .sknp x => if keyHeld s.keys (s.getV x) = true then a + 2 else a + 4
  | .wkey _ => if s.keys = 0#16 then a else a + 2
  | _ => a + 2

/-- The write rows of the table of spec/10_state.md R16: which general registers an instruction may write. -/
def writesReg (i : Instr) (r : Reg) : Prop :=
  match i with
  | .ldi x _ | .addi x _ | .rnd x _ | .lddt x | .wkey x => r = x
  | .mov x _ | .or x _ | .and x _ | .xor x _ => r = x
  | .add x _ | .sub x _ | .shr x _ | .subn x _ | .shl x _ => r = x ∨ r = vf
  | .drw _ _ _ => r = vf
  | .ldm x => r ≤ x
  | _ => False

/-- The `Step` rows of the table of spec/60_exceptions.md R124: what a step of a live core raises. -/
def raises (s : State) : ErrorKind → Prop
  | .stackOverflow => s.fetchable ∧ s.sp.val = 16 ∧ ∃ nnn, decode s.nextWord = .ok (.call nnn)
  | .stackUnderflow => s.fetchable ∧ s.sp.val = 0 ∧ decode s.nextWord = .ok .ret
  | .outOfBoundsMemoryAccess => 0x0FFE < s.pc.toNat ∨ s.fetchable ∧
      ((∃ x y n, decode s.nextWord = .ok (.drw x y n) ∧ 0 < n.toNat ∧ 4095 < s.i.toNat + n.toNat - 1) ∨
        (∃ x, decode s.nextWord = .ok (.bcd x) ∧ 4095 < s.i.toNat + 2) ∨
        (∃ x : Reg, (decode s.nextWord = .ok (.stm x) ∨ decode s.nextWord = .ok (.ldm x)) ∧ 4095 < s.i.toNat + x.val))
  | .programTooLarge => False
  | .unknownOpcode => s.fetchable ∧ ∃ e, decode s.nextWord = .error e

/-- The rows of spec/30_encoding.md R61: the illegal words, by family and sub-selector, in plain arithmetic of the word. -/
def illegalWord (w : Nat) : Prop :=
  (w / 4096 = 0x5 ∧ w % 16 ≠ 0) ∨
  (w / 4096 = 0x8 ∧ w % 16 ∈ [0x8, 0x9, 0xA, 0xB, 0xC, 0xD, 0xF]) ∨
  (w / 4096 = 0x9 ∧ w % 16 ≠ 0) ∨
  (w / 4096 = 0xE ∧ w % 256 ∉ [0x9E, 0xA1]) ∨
  (w / 4096 = 0xF ∧ w % 256 ∉ [0x07, 0x0A, 0x15, 0x18, 0x1E, 0x29, 0x33, 0x55, 0x65])

end Sys2Proof.Machine
end

