-- ==== Sys2Proof/Certificates/Slice0/Obligations.lean ====
section
/-! DEFINITION. The statements about the emusharp CORE, from the numbered rules of spec/. -/

open Sys2Proof Sys2Proof.Machine

/-! ### Encoding (spec/30_encoding.md) -/

/-- Every well-formed instruction, with every operand at every value its fields admit, is what its word decodes to (R52, R53,
R56). The encoder is the model's own, written from the formats of R53. -/
def Obligations.DecodeEncodeRoundTrip : Prop :=
  ∀ i : Instr, i.wf = true → decode (encode i) = .ok i

/-- Every legal word is the word of the instruction it decodes to, and that instruction is well-formed: each word has one
meaning and no bit of it is lost (R56, R57, R65). -/
def Obligations.EncodeDecodeRoundTrip : Prop :=
  ∀ (w : Word) (i : Instr), decode w = .ok i → encode i = w ∧ i.wf = true

/-- Words of families 0, 1, 3, 5, 7, 8, B, D, E and F, written out from the opcode map, decode as spec/95_test_vectors.md E1 to
E29 say (R56). The spec says only that the last two are illegal; the names of the refusals are the model's, log entry 11. -/
def Obligations.SampleWordsDecode : Prop :=
  decode 0x00E0#16 = .ok .cls ∧ decode 0x00EE#16 = .ok .ret ∧ decode 0x01E0#16 = .ok (.sys 0x1E0#12) ∧
  decode 0x1234#16 = .ok (.jp 0x234#12) ∧ decode 0x3A7F#16 = .ok (.sei 10 0x7F#8) ∧
  decode 0x7DFF#16 = .ok (.addi 13 0xFF#8) ∧ decode 0x8AB5#16 = .ok (.sub 10 11) ∧ decode 0x8ABE#16 = .ok (.shl 10 11) ∧
  decode 0xB123#16 = .ok (.jpv0 0x123#12) ∧ decode 0xD125#16 = .ok (.drw 1 2 5#4) ∧ decode 0xE3A1#16 = .ok (.sknp 3) ∧
  decode 0xF315#16 = .ok (.stdt 3) ∧ decode 0xF329#16 = .ok (.glyph 3) ∧ decode 0xF365#16 = .ok (.ldm 3) ∧
  decode 0x5AB1#16 = .error .family5 ∧ decode 0xF375#16 = .error .familyF

/-- The illegal words are exactly those of R61's table, read off the word by plain division and remainder. -/
def Obligations.IllegalWordsExactly : Prop :=
  ∀ w : Word, (∃ e, decode w = .error e) ↔ illegalWord w.toNat

/-! ### The step cycle, faults and precision (spec/20_memory.md, 30_encoding.md, 60_exceptions.md) -/

/-- When the bytes at `PC` decode to an instruction, a live core's step is that instruction's execution from the state with
`PC` advanced by 2, and nothing is added around it (R43, R64). -/
def Obligations.StepRunsDecodedInstruction : Prop :=
  ∀ (s : State) (i : Instr), s.live → s.fetchable → decode s.nextWord = .ok i →
    step s = exec i (s.setPc (s.pc + 2#16)) ∧ (s.setPc (s.pc + 2#16)).pc.toNat = s.pc.toNat + 2

/-- The fetch (R43): with `PC` above 0x0FFE the step raises OutOfBoundsMemoryAccess, `PC` unchanged; else the word is
`MEM[PC] * 256 + MEM[PC + 1]` and `PC` advances by 2. -/
def Obligations.FetchReadsBigEndianWord : Prop :=
  ∀ s : State,
    (0x0FFE < s.pc.toNat →
      s.fetch = none ∧ (s.live → step s = .next { s with fault := some .outOfBoundsMemoryAccess })) ∧
    (s.pc.toNat ≤ 0x0FFE →
      ∃ hi lo t, s.fetch = some (hi, lo, t) ∧
        (wordOfBytes hi lo).toNat = (s.mem.read s.pc.toNat).toNat * 256 + (s.mem.read (s.pc.toNat + 1)).toNat ∧
        t = { s with pc := t.pc } ∧ t.pc.toNat = (s.pc.toNat + 2) % 65536)

/-- A step of a live core ends with `FAULT` = k exactly where a `Step` row of R124's table says so. -/
def Obligations.StepRaisesExactly : Prop :=
  ∀ (s t : State) (k : ErrorKind), s.live → step s = .next t → (t.fault = some k ↔ raises s k)

/-- Faults are precise (R128): after a faulting step everything but `FAULT` and `PC` is as before, and `PC` is unchanged after
a fetch fault and advanced by 2 after a decode or execute fault; a faulting `Load` copies nothing. -/
def Obligations.FaultsArePrecise : Prop :=
  (∀ s t : State, s.live → step s = .next t → ¬t.live →
    t = { s with pc := t.pc, fault := t.fault } ∧
      t.pc.toNat = if 0x0FFE < s.pc.toNat then s.pc.toNat else s.pc.toNat + 2) ∧
  (∀ (s t : State) (bytes : List Byte), s.live → perform (.load bytes) s = .next t → ¬t.live →
    t = { s with fault := t.fault })

/-- How each instruction leaves `PC` (the table of R19). -/
def Obligations.PcAfterEachInstruction : Prop :=
  ∀ s t : State, s.live → step s = .next t →
    (0x0FFE < s.pc.toNat → t.pc = s.pc) ∧
    (s.fetchable → ¬t.live → t.pc.toNat = s.pc.toNat + 2) ∧
    (∀ i, s.fetchable → t.live → decode s.nextWord = .ok i → t.pc.toNat = pcAfter s.pc.toNat i s)

/-! ### Invariants and whole runs -/

/-- Every step keeps the invariant: memory's canonical form, `PC` at most 0x10FE, every valid stack entry the address after a
CALL (R20, R21, R35). The canonical form of memory is the model's own, log entry 10. -/
def Obligations.StepKeepsInvariant : Prop :=
  ∀ s t : State, s.Inv → step s = .next t → t.Inv

/-- The reset state meets the invariant (R32). The canonical form of memory is the model's own, log entry 10. -/
def Obligations.ResetMeetsInvariant : Prop := State.reset.Inv

/-- Every sequence of host operations, `Step` among them in any interleaving, keeps the invariant (R20, R145). The
canonical form of memory is the model's own, log entry 10. -/
def Obligations.EveryRunKeepsInvariant : Prop :=
  ∀ (ops : List HostOp) (s t : State), s.Inv → performAll ops s = .next t → t.Inv

/-- The core is never stuck: from every state, every instruction and every sequence of host operations has a next state (R165,
R127). -/
def Obligations.CoreIsNeverStuck : Prop :=
  (∀ (i : Instr) (s : State), ∃ t, exec i s = .next t) ∧
  (∀ (ops : List HostOp) (s : State), ∃ t, performAll ops s = .next t)

/-- The dead core (R127): no sequence of operations without `Reset` changes any state, and `Reset` clears the latch. -/
def Obligations.DeadCoreObeysOnlyReset : Prop :=
  ∀ (s : State) (k : ErrorKind), s.fault = some k →
    (∀ ops : List HostOp, HostOp.reset ∉ ops → performAll ops s = .next s) ∧
    (∃ t, perform .reset s = .next t ∧ t.live)

/-- `Reset`, on a dead core too, gives every item of state its reset value (R32, R135). The model's count of free draws is no
item of the spec's state and is left out. -/
def Obligations.ResetGivesEveryResetValue : Prop :=
  ∀ s : State, ∃ t, perform .reset s = .next t ∧
    (∀ r, t.getV r = 0x00#8) ∧ t.i = 0x0000#16 ∧ t.pc = 0x0200#16 ∧ (∀ k, t.stackAt k = 0x0000#16) ∧ t.sp.val = 0 ∧
    t.dt = 0x00#8 ∧ t.st = 0x00#8 ∧ t.keys = 0x0000#16 ∧ (∀ x y, t.getPixel x y = false) ∧ t.redraw = false ∧
    (∀ a, t.mem.read a = 0x00#8) ∧ t.fault = none

/-- Straight after reset 1792 SYS no-ops run from 0x200, each moving `PC` by 2 and changing nothing else, and the step after
them raises OutOfBoundsMemoryAccess at 0x1000 (R155). -/
def Obligations.ZeroedMemoryRunsNoOps : Prop :=
  (∀ k ≤ 1792, performAll (List.replicate k .step) State.reset =
    .next { State.reset with pc := BitVec.ofNat 16 (0x200 + 2 * k) }) ∧
  performAll (List.replicate 1793 .step) State.reset =
    .next { State.reset with pc := 0x1000#16, fault := some .outOfBoundsMemoryAccess }

/-- Zeroed memory is walked two bytes at a time from anywhere: a live core whose next `2 * k` bytes are inside memory and read 0
executes k SYS no-ops, which move `PC` by `2 * k` and change nothing else (R70, R155). -/
def Obligations.ZeroBytesAreSteppedOver : Prop :=
  ∀ (s : State) (k : Nat), s.live → s.pc.toNat + 2 * k ≤ 0x1000 →
    (∀ a, s.pc.toNat ≤ a → a < s.pc.toNat + 2 * k → s.mem.read a = 0x00#8) →
    ∃ t, performAll (List.replicate k .step) s = .next t ∧ t.pc.toNat = s.pc.toNat + 2 * k ∧ t = { s with pc := t.pc }

/-- A core at a JP to itself changes nothing from then on, however often it is stepped (R152). -/
def Obligations.EndedRunStaysUnchanged : Prop :=
  ∀ (s : State) (n : Nat), s.ended → performAll (List.replicate n .step) s = .next s

/-! ### Control transfer (spec/40_control.md) -/

/-- RET (R71): with an entry on the stack `PC` is the newest entry, all 16 bits, and `SP` is one less, the entry's bits staying
in the array; with none StackUnderflow and nothing else. -/
def Obligations.RetPopsOrUnderflows : Prop :=
  ∀ s : State,
    (0 < s.sp.val → ∃ t, exec .ret s = .next t ∧ (∀ k : Fin 16, k.val + 1 = s.sp.val → t.pc = s.stackAt k) ∧
      t.sp.val + 1 = s.sp.val ∧ t.stack = s.stack ∧ sameRegsBut [] s t ∧ t.i = s.i ∧ sameTimers s t ∧ t.keys = s.keys ∧
      sameDisplay s t ∧ sameMemory s t ∧ t.fault = s.fault) ∧
    (s.sp.val = 0 → exec .ret s = .next { s with fault := some .stackUnderflow })

/-- CALL (R73): with fewer than 16 entries the advanced `PC` becomes the newest entry and `PC` is NNN; with 16 StackOverflow,
nothing pushed and no jump. -/
def Obligations.CallPushesOrOverflows : Prop :=
  ∀ (s : State) (nnn : Addr),
    (s.sp.val < 16 → ∃ t, exec (.call nnn) s = .next t ∧ t.pc.toNat = nnn.toNat ∧ t.sp.val = s.sp.val + 1 ∧
      (∀ k : Fin 16, t.stackAt k = if k.val = s.sp.val then s.pc else s.stackAt k) ∧ sameRegsBut [] s t ∧ t.i = s.i ∧
      sameTimers s t ∧ t.keys = s.keys ∧ sameDisplay s t ∧ sameMemory s t ∧ t.fault = s.fault) ∧
    (s.sp.val = 16 → exec (.call nnn) s = .next { s with fault := some .stackOverflow })

/-- SYS does nothing, JP sets `PC` to NNN and JPV0 to NNN + V0, whatever the other registers hold; nothing else changes (R70,
R72, R74). -/
def Obligations.JumpsReachTheirTargets : Prop :=
  ∀ (s : State) (nnn : Addr),
    exec (.sys nnn) s = .next s ∧
    (∃ t, exec (.jp nnn) s = .next t ∧ t.pc.toNat = nnn.toNat ∧ onlyRegs [] s t) ∧
    (∃ t, exec (.jpv0 nnn) s = .next t ∧ t.pc.toNat = (nnn.toNat + (s.getV 0).toNat) % 65536 ∧ onlyRegs [] s t)

/-- A CALL that succeeds and a later RET from the same stack depth lead back to the address after the CALL, whatever the
subroutine did to `PC` (R71, R73, R22). -/
def Obligations.RetUndoesCall : Prop :=
  ∀ (s t : State) (nnn : Addr) (p : Word), s.sp.val < 16 → exec (.call nnn) s = .next t →
    ∃ u, exec .ret (t.setPc p) = .next u ∧ u.pc = s.pc ∧ u.sp = s.sp ∧
      ∀ k : Fin 16, k.val < s.sp.val → u.stackAt k = s.stackAt k

/-! ### Skips (spec/41_skip.md, 46_keys.md) -/

/-- SEI, SNEI, SER and SNER add 2 to the advanced `PC` when their comparison holds and do nothing else (R76 to R79). -/
def Obligations.RegisterSkips : Prop :=
  ∀ (s : State) (x y : Reg) (nn : Byte),
    (∃ t, exec (.sei x nn) s = .next t ∧ onlyRegs [] s t ∧
      t.pc.toNat = (s.pc.toNat + if s.getV x = nn then 2 else 0) % 65536) ∧
    (∃ t, exec (.snei x nn) s = .next t ∧ onlyRegs [] s t ∧
      t.pc.toNat = (s.pc.toNat + if s.getV x ≠ nn then 2 else 0) % 65536) ∧
    (∃ t, exec (.ser x y) s = .next t ∧ onlyRegs [] s t ∧
      t.pc.toNat = (s.pc.toNat + if s.getV x = s.getV y then 2 else 0) % 65536) ∧
    (∃ t, exec (.sner x y) s = .next t ∧ onlyRegs [] s t ∧
      t.pc.toNat = (s.pc.toNat + if s.getV x ≠ s.getV y then 2 else 0) % 65536)

/-- SKP skips when VX is at most 15 and key VX is held, SKNP otherwise; the whole byte is compared (R110, R111).
The comparison of the whole byte is the spec's own decision D20. -/
def Obligations.KeySkips : Prop :=
  ∀ (s : State) (x : Reg),
    (∃ t, exec (.skp x) s = .next t ∧ onlyRegs [] s t ∧
      t.pc.toNat =
        (s.pc.toNat + if (s.getV x).toNat ≤ 15 ∧ s.keys.getLsbD (s.getV x).toNat = true then 2 else 0) % 65536) ∧
    (∃ t, exec (.sknp x) s = .next t ∧ onlyRegs [] s t ∧
      t.pc.toNat =
        (s.pc.toNat + if (s.getV x).toNat ≤ 15 ∧ s.keys.getLsbD (s.getV x).toNat = true then 0 else 2) % 65536)

/-! ### Immediates, arithmetic and logic (spec/42_immediate.md, 43_alu.md) -/

/-- LDI sets VX to NN; ADDI adds NN modulo 256 and leaves VF alone unless it is the destination (R81, R82). -/
def Obligations.ImmediateResults : Prop :=
  ∀ (s : State) (x : Reg) (nn : Byte),
    (∃ t, exec (.ldi x nn) s = .next t ∧ t.getV x = nn ∧ onlyRegs [x] s t ∧ t.pc = s.pc) ∧
    (∃ t, exec (.addi x nn) s = .next t ∧ (t.getV x).toNat = ((s.getV x).toNat + nn.toNat) % 256 ∧
      onlyRegs [x] s t ∧ t.pc = s.pc)

/-- RND sets VX to the drawn byte masked by NN: no bit NN lacks, 0 for NN = 0, the byte itself for NN = 0xFF; the draw is the
next free value, whatever it is, and the one after it comes from a fresh draw (R83). The form of the free value is log entry
1. -/
def Obligations.RndMasksAFreeByte : Prop :=
  ∀ (s : State) (x : Reg) (nn : Byte), ∃ t, exec (.rnd x nn) s = .next t ∧
    t.getV x = Config.randByte s.draws &&& nn ∧ (∀ k, nn.getLsbD k = false → (t.getV x).getLsbD k = false) ∧
    (nn = 0xFF#8 → t.getV x = Config.randByte s.draws) ∧ s.draws < t.draws ∧ onlyRegs [x] s t ∧ t.pc = s.pc

/-- MOV, OR, AND and XOR write VX bit by bit and leave VF alone unless it is the destination (R86 to R89). -/
def Obligations.LogicResults : Prop :=
  ∀ (s : State) (x y : Reg),
    (∃ t, exec (.mov x y) s = .next t ∧ t.getV x = s.getV y ∧ onlyRegs [x] s t ∧ t.pc = s.pc) ∧
    (∃ t, exec (.or x y) s = .next t ∧ onlyRegs [x] s t ∧ t.pc = s.pc ∧
      ∀ k, (t.getV x).getLsbD k = ((s.getV x).getLsbD k || (s.getV y).getLsbD k)) ∧
    (∃ t, exec (.and x y) s = .next t ∧ onlyRegs [x] s t ∧ t.pc = s.pc ∧
      ∀ k, (t.getV x).getLsbD k = ((s.getV x).getLsbD k && (s.getV y).getLsbD k)) ∧
    (∃ t, exec (.xor x y) s = .next t ∧ onlyRegs [x] s t ∧ t.pc = s.pc ∧
      ∀ k, (t.getV x).getLsbD k = ((s.getV x).getLsbD k ^^ (s.getV y).getLsbD k))

/-- ADD for every X and Y (R90): the carry goes to VF first, then the operands are read again (VF reads the carry) and their
sum modulo 256 goes to VX.
The order of the two writes is the spec's own decision D2, R84; log entry 3. -/
def Obligations.AddWritesCarryThenSum : Prop :=
  ∀ (s : State) (x y : Reg), ∃ t, exec (.add x y) s = .next t ∧ onlyRegs [x, vf] s t ∧ t.pc = s.pc ∧
    let c := if (s.getV x).toNat + (s.getV y).toNat > 255 then 1 else 0
    let vx := if x = vf then c else (s.getV x).toNat
    let vy := if y = vf then c else (s.getV y).toNat
    (t.getV x).toNat = (vx + vy) % 256 ∧ (x ≠ vf → (t.getV vf).toNat = c)

/-- SUB for every X and Y (R91): not-borrow goes to VF first, then the operands are read again and VX - VY modulo 256 goes to
VX.
The order of the two writes is the spec's own decision D2, R84; log entry 3. -/
def Obligations.SubWritesNotBorrowThenDifference : Prop :=
  ∀ (s : State) (x y : Reg), ∃ t, exec (.sub x y) s = .next t ∧ onlyRegs [x, vf] s t ∧ t.pc = s.pc ∧
    let b := if (s.getV x).toNat ≥ (s.getV y).toNat then 1 else 0
    let vx := if x = vf then b else (s.getV x).toNat
    let vy := if y = vf then b else (s.getV y).toNat
    (t.getV x).toNat = (vx + 256 - vy) % 256 ∧ (x ≠ vf → (t.getV vf).toNat = b)

/-- SUBN for every X and Y (R93): not-borrow of VY - VX goes to VF first, then the operands are read again and VY - VX modulo
256 goes to VX.
The order of the two writes is the spec's own decision D2, R84; log entry 3. -/
def Obligations.SubnWritesNotBorrowThenDifference : Prop :=
  ∀ (s : State) (x y : Reg), ∃ t, exec (.subn x y) s = .next t ∧ onlyRegs [x, vf] s t ∧ t.pc = s.pc ∧
    let b := if (s.getV y).toNat ≥ (s.getV x).toNat then 1 else 0
    let vx := if x = vf then b else (s.getV x).toNat
    let vy := if y = vf then b else (s.getV y).toNat
    (t.getV x).toNat = (vy + 256 - vx) % 256 ∧ (x ≠ vf → (t.getV vf).toNat = b)

/-- SHR for every X and Y (R92): bit 0 of VX goes to VF first, then VX is read again and halved; Y plays no part, and with
X = 15 VF ends 0.
The order of the two writes is the spec's own decision D2, R84; log entry 3. -/
def Obligations.ShrShiftsVxRight : Prop :=
  ∀ (s : State) (x y : Reg), ∃ t, exec (.shr x y) s = .next t ∧ onlyRegs [x, vf] s t ∧ t.pc = s.pc ∧
    (x ≠ vf → (t.getV x).toNat = (s.getV x).toNat / 2 ∧ (t.getV vf).toNat = (s.getV x).toNat % 2) ∧
    (x = vf → t.getV vf = 0x00#8)

/-- SHL for every X and Y (R94): bit 7 of VX goes to VF first, then VX is read again and doubled modulo 256; Y plays no part,
and with X = 15 VF ends as twice its old bit 7.
The order of the two writes is the spec's own decision D2, R84; log entry 3. Bit 7 is the spec's own decision D3; log entry 5. -/
def Obligations.ShlShiftsVxLeft : Prop :=
  ∀ (s : State) (x y : Reg), ∃ t, exec (.shl x y) s = .next t ∧ onlyRegs [x, vf] s t ∧ t.pc = s.pc ∧
    (x ≠ vf → (t.getV x).toNat = (s.getV x).toNat * 2 % 256 ∧ (t.getV vf).toNat = (s.getV x).toNat / 128) ∧
    (x = vf → (t.getV vf).toNat = 2 * ((s.getV vf).toNat / 128))

/-- The outcomes with VF as an operand, the rows of R95's table: `v` is the other operand's value and `old` VF's, both from
before the instruction; `c` is ADD's carry, `ge` is 1 where `v` is at least `old` and `le` where `old` is at least `v`.
The order of the two writes is the spec's own decision D2, R84; log entry 3. -/
def Obligations.VfOperandTable : Prop :=
  ∀ (s : State) (r y : Reg), r ≠ vf →
    let v := (s.getV r).toNat
    let old := (s.getV vf).toNat
    let c := if v + old > 255 then 1 else 0
    let ge := if v ≥ old then 1 else 0
    let le := if old ≥ v then 1 else 0
    (∃ t, exec (.add r vf) s = .next t ∧ onlyRegs [r, vf] s t ∧ (t.getV vf).toNat = c ∧
      (t.getV r).toNat = (v + c) % 256) ∧
    (∃ t, exec (.add vf r) s = .next t ∧ onlyRegs [vf] s t ∧ (t.getV vf).toNat = (c + v) % 256) ∧
    (∃ t, exec (.add vf vf) s = .next t ∧ onlyRegs [vf] s t ∧ (t.getV vf).toNat = if old ≥ 128 then 2 else 0) ∧
    (∃ t, exec (.sub r vf) s = .next t ∧ onlyRegs [r, vf] s t ∧ (t.getV vf).toNat = ge ∧
      (t.getV r).toNat = (v + 256 - ge) % 256) ∧
    (∃ t, exec (.sub vf r) s = .next t ∧ onlyRegs [vf] s t ∧ (t.getV vf).toNat = (le + 256 - v) % 256) ∧
    (∃ t, exec (.sub vf vf) s = .next t ∧ onlyRegs [vf] s t ∧ (t.getV vf).toNat = 0) ∧
    (∃ t, exec (.subn r vf) s = .next t ∧ onlyRegs [r, vf] s t ∧ (t.getV vf).toNat = le ∧
      (t.getV r).toNat = (le + 256 - v) % 256) ∧
    (∃ t, exec (.subn vf r) s = .next t ∧ onlyRegs [vf] s t ∧ (t.getV vf).toNat = (v + 256 - ge) % 256) ∧
    (∃ t, exec (.subn vf vf) s = .next t ∧ onlyRegs [vf] s t ∧ (t.getV vf).toNat = 0) ∧
    (∃ t, exec (.shr vf y) s = .next t ∧ onlyRegs [vf] s t ∧ (t.getV vf).toNat = 0) ∧
    (∃ t, exec (.shl vf y) s = .next t ∧ onlyRegs [vf] s t ∧ (t.getV vf).toNat = 2 * (old / 128)) ∧
    (∃ t, exec (.shr r vf) s = .next t ∧ onlyRegs [r, vf] s t ∧ (t.getV vf).toNat = v % 2 ∧ (t.getV r).toNat = v / 2) ∧
    (∃ t, exec (.shl r vf) s = .next t ∧ onlyRegs [r, vf] s t ∧ (t.getV vf).toNat = v / 128 ∧
      (t.getV r).toNat = v * 2 % 256)

/-! ### Address register and timers (spec/44_index.md, 47_timers.md) -/

/-- LDA sets `I` to NNN, ADDA adds VX modulo 65536 with no flag, GLYPH sets `I` to the whole of VX times 5; nothing else
changes (R97 to R99).
That `I` keeps 16 bits is the spec's own decision D6. -/
def Obligations.AddressRegisterResults : Prop :=
  ∀ (s : State) (nnn : Addr) (x : Reg),
    (∃ t, exec (.lda nnn) s = .next t ∧ t.i.toNat = nnn.toNat ∧ t = { s with i := t.i }) ∧
    (∃ t, exec (.adda x) s = .next t ∧ t.i.toNat = (s.i.toNat + (s.getV x).toNat) % 65536 ∧ t = { s with i := t.i }) ∧
    (∃ t, exec (.glyph x) s = .next t ∧ t.i.toNat = (s.getV x).toNat * 5 ∧ t = { s with i := t.i })

/-- LDDT reads `DT` into VX, STDT and STST write VX to `DT` and `ST`; nothing else changes (R115 to R117). -/
def Obligations.TimerMoves : Prop :=
  ∀ (s : State) (x : Reg),
    (∃ t, exec (.lddt x) s = .next t ∧ t.getV x = s.dt ∧ onlyRegs [x] s t ∧ t.pc = s.pc) ∧
    (∃ t, exec (.stdt x) s = .next t ∧ t.dt = s.getV x ∧ t = { s with dt := t.dt }) ∧
    (∃ t, exec (.stst x) s = .next t ∧ t.st = s.getV x ∧ t = { s with st := t.st })

/-! ### Display (spec/45_display.md) -/

/-- CLS unsets all 2048 pixels, sets `REDRAW` on every execution and changes nothing else (R101). -/
def Obligations.ClsClearsEveryPixel : Prop :=
  ∀ s : State, ∃ t, exec .cls s = .next t ∧ (∀ x y, t.getPixel x y = false) ∧ t.redraw = true ∧
    sameRegsBut [] s t ∧ t.i = s.i ∧ t.pc = s.pc ∧ sameStack s t ∧ sameTimers s t ∧ t.keys = s.keys ∧ sameMemory s t ∧
    t.fault = s.fault

/-- The pixels and the frame of DRW; its VF and `REDRAW` are `DrwReportsCollisionAndChange`, its fault
`DrwOutOfBoundsChangesNothing`. With its bytes in bounds it xors sprite bit `bit` of row `row`, most significant first, onto
the pixel at ((VX + bit) mod 64, (VY + row) mod 32), VX and VY being the values found, and changes no other pixel, no register
but VF and nothing else but `REDRAW` (R102, R104, R103). That the values found are used with X or Y = 15 is the spec's own
decision D13; log entry 4. -/
def Obligations.DrwXorsTheSprite : Prop :=
  ∀ (s : State) (x y : Reg) (n : Nibble), n.toNat = 0 ∨ s.i.toNat + n.toNat - 1 ≤ 4095 →
    ∃ t, exec (.drw x y n) s = .next t ∧
      (∀ row < n.toNat, ∀ bit < 8, ∀ (px : Fin 64) (py : Fin 32), px.val = ((s.getV x).toNat + bit) % 64 →
        py.val = ((s.getV y).toNat + row) % 32 →
        t.getPixel px py = (s.getPixel px py ^^ (s.mem.read (s.i.toNat + row)).getLsbD (7 - bit))) ∧
      (∀ (px : Fin 64) (py : Fin 32), (∀ row < n.toNat, ∀ bit < 8,
        ¬(px.val = ((s.getV x).toNat + bit) % 64 ∧ py.val = ((s.getV y).toNat + row) % 32)) →
        t.getPixel px py = s.getPixel px py) ∧
      sameRegsBut [vf] s t ∧ t.i = s.i ∧ t.pc = s.pc ∧ sameStack s t ∧ sameTimers s t ∧ t.keys = s.keys ∧
      sameMemory s t ∧ t.fault = s.fault

/-- After DRW VF is 1 exactly when some pixel went from set to unset, that is, when at some position the sprite bit is 1 and the
old pixel is 1, else 0 (R105); and `REDRAW` is set exactly when it was set or some pixel changed, that is, when some sprite bit
is 1 (R106). For every X and Y, 15 included. -/
def Obligations.DrwReportsCollisionAndChange : Prop :=
  ∀ (s : State) (x y : Reg) (n : Nibble), n.toNat = 0 ∨ s.i.toNat + n.toNat - 1 ≤ 4095 →
    ∃ t, exec (.drw x y n) s = .next t ∧
      (t.getV vf = 0x01#8 ∨ t.getV vf = 0x00#8) ∧
      (t.getV vf = 0x01#8 ↔ ∃ px py, s.getPixel px py = true ∧ t.getPixel px py = false) ∧
      (t.getV vf = 0x01#8 ↔ ∃ row < n.toNat, ∃ bit < 8, ∃ (px : Fin 64) (py : Fin 32),
        px.val = ((s.getV x).toNat + bit) % 64 ∧ py.val = ((s.getV y).toNat + row) % 32 ∧
        (s.mem.read (s.i.toNat + row)).getLsbD (7 - bit) = true ∧ s.getPixel px py = true) ∧
      (t.redraw = true ↔ s.redraw = true ∨ ∃ px py, t.getPixel px py ≠ s.getPixel px py) ∧
      (t.redraw = true ↔ s.redraw = true ∨
        ∃ row < n.toNat, ∃ bit < 8, (s.mem.read (s.i.toNat + row)).getLsbD (7 - bit) = true)

/-- DRW with a sprite byte above address 4095 raises OutOfBoundsMemoryAccess and changes nothing but `FAULT`: no VF reset, no
pixel (R102, R103). -/
def Obligations.DrwOutOfBoundsChangesNothing : Prop :=
  ∀ (s : State) (x y : Reg) (n : Nibble), 0 < n.toNat → 4095 < s.i.toNat + n.toNat - 1 →
    exec (.drw x y n) s = .next { s with fault := some .outOfBoundsMemoryAccess }

/-- DRW with N = 0 draws nothing and faults for no `I`: it only writes VF := 0 (R108). -/
def Obligations.DrwZeroRowsOnlyResetsVf : Prop :=
  ∀ (s : State) (x y : Reg), ∃ t, exec (.drw x y 0#4) s = .next t ∧ t.getV vf = 0x00#8 ∧ onlyRegs [vf] s t ∧ t.pc = s.pc

/-- DRW is its own inverse on the display: the same DRW twice, at the same coordinates, restores every pixel (R107). -/
def Obligations.DrwTwiceRestoresDisplay : Prop :=
  ∀ (s t u : State) (x y : Reg) (n : Nibble), exec (.drw x y n) s = .next t →
    t.getV x = s.getV x → t.getV y = s.getV y → exec (.drw x y n) t = .next u →
    ∀ px py, u.getPixel px py = s.getPixel px py

/-! ### Keys (spec/46_keys.md) -/

/-- WKEY (R112): with a key held VX is the number of a held key, the only one when one key alone is held, and nothing else
changes; with none held `PC` goes back by 2 and nothing else changes. Which of several keys is free (log entry 2). -/
def Obligations.WkeyTakesAHeldKeyOrRewinds : Prop :=
  ∀ (s : State) (x : Reg),
    (s.keys ≠ 0#16 → ∃ t, exec (.wkey x) s = .next t ∧ (t.getV x).toNat ≤ 15 ∧
      s.keys.getLsbD (t.getV x).toNat = true ∧
      (∀ k < 16, s.keys = 1#16 <<< k → (t.getV x).toNat = k) ∧ onlyRegs [x] s t ∧ t.pc = s.pc) ∧
    (s.keys = 0#16 → ∃ t, exec (.wkey x) s = .next t ∧ t.pc.toNat = (s.pc.toNat + 65534) % 65536 ∧
      t = { s with pc := t.pc })

/-- The key wait across steps (R113): while no key is held, any number of steps at a WKEY leaves the whole state unchanged. -/
def Obligations.KeyWaitSpinsInPlace : Prop :=
  ∀ (s : State) (x : Reg) (n : Nat), s.live → s.fetchable → decode s.nextWord = .ok (.wkey x) → s.keys = 0#16 →
    performAll (List.replicate n .step) s = .next s

/-! ### Memory instructions (spec/48_memops.md) -/

/-- BCD (R119): with I + 2 at most 4095 the three digits of VX at I, I + 1, I + 2 and nothing else changed; else
OutOfBoundsMemoryAccess and no byte written. -/
def Obligations.BcdStoresThreeDigits : Prop :=
  ∀ (s : State) (x : Reg),
    (s.base + 2 ≤ 4095 → ∃ t, exec (.bcd x) s = .next t ∧
      (t.mem.read s.base).toNat = (s.getV x).toNat / 100 ∧
      (t.mem.read (s.base + 1)).toNat = (s.getV x).toNat / 10 % 10 ∧
      (t.mem.read (s.base + 2)).toNat = (s.getV x).toNat % 10 ∧
      (∀ a, a < s.base ∨ s.base + 2 < a → t.mem.read a = s.mem.read a) ∧ t = { s with mem := t.mem }) ∧
    (4095 < s.base + 2 → exec (.bcd x) s = .next { s with fault := some .outOfBoundsMemoryAccess })

/-- STM (R120): with I + X at most 4095 V0 to VX at I to I + X and nothing else changed; else OutOfBoundsMemoryAccess and no
byte written. -/
def Obligations.StmStoresV0ToVx : Prop :=
  ∀ (s : State) (x : Reg),
    (s.base + x.val ≤ 4095 → ∃ t, exec (.stm x) s = .next t ∧
      (∀ r : Reg, r ≤ x → t.mem.read (s.base + r.val) = s.getV r) ∧
      (∀ a, a < s.base ∨ s.base + x.val < a → t.mem.read a = s.mem.read a) ∧ t = { s with mem := t.mem }) ∧
    (4095 < s.base + x.val → exec (.stm x) s = .next { s with fault := some .outOfBoundsMemoryAccess })

/-- LDM (R121): with I + X at most 4095 V0 to VX from I to I + X and nothing else changed; else OutOfBoundsMemoryAccess and no
register written. -/
def Obligations.LdmLoadsV0ToVx : Prop :=
  ∀ (s : State) (x : Reg),
    (s.base + x.val ≤ 4095 → ∃ t, exec (.ldm x) s = .next t ∧
      (∀ r : Reg, r ≤ x → t.getV r = s.mem.read (s.base + r.val)) ∧
      (∀ r : Reg, x < r → t.getV r = s.getV r) ∧ t = { s with v := t.v }) ∧
    (4095 < s.base + x.val → exec (.ldm x) s = .next { s with fault := some .outOfBoundsMemoryAccess })

/-- STM then LDM with the same `I` and X restores the registers saved, whatever the registers held in between (R122). -/
def Obligations.LdmRestoresWhatStmSaved : Prop :=
  ∀ (s t u : State) (x : Reg), s.base + x.val ≤ 4095 → exec (.stm x) s = .next t → u.i = t.i → sameMemory t u →
    ∃ w, exec (.ldm x) u = .next w ∧ ∀ r : Reg, r ≤ x → w.getV r = s.getV r

/-- A store is seen by the next fetch: an STM over the two bytes at `PC` leaves V0 and V1 as the next instruction word, V0 its
high byte, and the step that follows runs it (R47, R37). -/
def Obligations.StoreIsSeenByNextFetch : Prop :=
  ∀ (s t : State) (x : Reg) (i : Instr), s.live → 1 ≤ x.val → s.i = s.pc → s.base + x.val ≤ 4095 →
    exec (.stm x) s = .next t →
    t.nextWord.toNat = (s.getV 0).toNat * 256 + (s.getV 1).toNat ∧
    (decode (wordOfBytes (s.getV 0) (s.getV 1)) = .ok i → step t = exec i (t.setPc (t.pc + 2#16)))

/-! ### Who may change what -/

/-- An instruction writes no general register but those R16's table gives it; in particular VF is written as a flag by ADD,
SUB, SHR, SUBN, SHL and DRW alone (R15, R16). -/
def Obligations.RegistersWrittenAreTheTables : Prop :=
  ∀ (i : Instr) (s t : State) (r : Reg), exec i s = .next t → t.getV r ≠ s.getV r → writesReg i r

/-- Only LDA, ADDA and GLYPH change `I`; only CALL and RET the return stack; only STDT `DT`; only STST `ST`; only CLS and DRW
the display and `REDRAW`, and none of them clears `REDRAW`; only BCD and STM memory; none `KEYS` (R96, R21, R23, R26, R36,
R137). -/
def Obligations.EachStateHasItsWriters : Prop :=
  ∀ (i : Instr) (s t : State), exec i s = .next t →
    (t.i ≠ s.i → (∃ nnn, i = .lda nnn) ∨ (∃ x, i = .adda x) ∨ (∃ x, i = .glyph x)) ∧
    (¬sameStack s t → (∃ nnn, i = .call nnn) ∨ i = .ret) ∧
    (t.dt ≠ s.dt → ∃ x, i = .stdt x) ∧ (t.st ≠ s.st → ∃ x, i = .stst x) ∧
    (¬sameDisplay s t → i = .cls ∨ ∃ x y n, i = .drw x y n) ∧ (s.redraw = true → t.redraw = true) ∧
    (¬sameMemory s t → (∃ x, i = .bcd x) ∨ ∃ x, i = .stm x) ∧ t.keys = s.keys

/-- Apart from `Reset`, `Step` is the only operation that changes `PC`, the registers, `I`, the stack or the display; it never
changes `KEYS`, and changes `DT` and `ST` only by STDT and STST (R137, R132). -/
def Obligations.HostOperationsKeepTheirDistance : Prop :=
  (∀ (o : HostOp) (s t : State), o ≠ .reset → o ≠ .step → perform o s = .next t →
    t.pc = s.pc ∧ t.v = s.v ∧ t.i = s.i ∧ sameStack s t ∧ t.fb = s.fb) ∧
  (∀ s t : State, perform .step s = .next t → t.keys = s.keys ∧
    (t.dt ≠ s.dt → ∃ x, decode s.nextWord = .ok (.stdt x)) ∧ (t.st ≠ s.st → ∃ x, decode s.nextWord = .ok (.stst x)))

/-- No instruction reads `ST` or `REDRAW`: two states that differ in nothing else step to two states that differ in nothing
else (R23, R26). -/
def Obligations.OutputsDoNotFeedBack : Prop :=
  ∀ (s t : State) (b : Byte) (r : Bool), step s = .next t →
    ∃ b' r', step { s with st := b, redraw := r } = .next { t with st := b', redraw := r' }

/-- No program can read a stack entry it has not pushed: two states that agree but for the entries at and above `SP` step to
two states that agree so again (R22). -/
def Obligations.StaleEntriesAreUnobservable : Prop :=
  ∀ s s' t : State, sameButStale s s' → step s = .next t → ∃ t', step s' = .next t' ∧ sameButStale t t'

/-! ### Host operations (spec/60_exceptions.md) -/

/-- `TickTimers`, any number of times on a live core: `DT` and `ST` each go down by that number, never below 0, and nothing
else changes; a dead core ignores it (R138). -/
def Obligations.TickTimersCountsDownToZero : Prop :=
  ∀ (s : State) (n : Nat),
    (s.live → ∃ t, performAll (List.replicate n .tickTimers) s = .next t ∧
      t.dt.toNat = s.dt.toNat - n ∧ t.st.toNat = s.st.toNat - n ∧ t = { s with dt := t.dt, st := t.st }) ∧
    (¬s.live → performAll (List.replicate n .tickTimers) s = .next s)

/-- `SetKey(k, pressed)` on a live core: key k is held exactly when pressed, every other key is as before, and nothing else
changes; a dead core ignores it (R139). -/
def Obligations.SetKeyChangesOneKey : Prop :=
  ∀ (s : State) (k : Key) (pressed : Bool),
    (s.live → ∃ t, perform (.setKey k pressed) s = .next t ∧
      (∀ j : Key, t.keys.getLsbD j.val = if j = k then pressed else s.keys.getLsbD j.val) ∧ t = { s with keys := t.keys }) ∧
    (¬s.live → perform (.setKey k pressed) s = .next s)

/-- `ClearRedraw` on a live core clears `REDRAW` and changes nothing else, a dead core ignores it, and no step of the core
clears the flag (R140). -/
def Obligations.ClearRedrawOnlyClearsTheFlag : Prop :=
  (∀ s : State, s.live → perform .clearRedraw s = .next { s with redraw := false }) ∧
  (∀ s : State, ¬s.live → perform .clearRedraw s = .next s) ∧
  (∀ s t : State, s.redraw = true → step s = .next t → t.redraw = true)

/-- `Load` (R136): on a live core up to 3584 bytes go to 0x200 upward and nothing else changes, `PC` included; more raise
ProgramTooLarge with nothing copied; a dead core ignores it. -/
def Obligations.LoadCopiesTheImage : Prop :=
  ∀ (s : State) (bytes : List Byte),
    (s.live → bytes.length ≤ 3584 → ∃ t, perform (.load bytes) s = .next t ∧
      (∀ j (h : j < bytes.length), t.mem.read (0x200 + j) = bytes[j]) ∧
      (∀ a, a < 0x200 ∨ 0x200 + bytes.length ≤ a → t.mem.read a = s.mem.read a) ∧ t = { s with mem := t.mem }) ∧
    (s.live → 3584 < bytes.length → perform (.load bytes) s = .next { s with fault := some .programTooLarge }) ∧
    (¬s.live → perform (.load bytes) s = .next s)
end

