-- ==== Sys2Proof/Laws/Memory.lean ====
section
/-! SUPPORT. Memory: a read after a write, that every operation keeps the canonical form, and what a block access does
(spec/20_memory.md R35, R38, R39, R44). -/

namespace Sys2Proof.Machine

/-! ### Reading after writing -/

@[simp] theorem Memory.read_nil (a : Nat) : Memory.read [] a = Memory.unlisted := rfl

theorem Memory.read_cons (b : Nat) (w : Byte) (m : Memory) (a : Nat) :
    Memory.read ((b, w) :: m) a = if b = a then w else Memory.read m a := rfl

theorem Memory.read_erase (m : Memory) (a c : Nat) :
    (m.erase a).read c = if c = a then Memory.unlisted else m.read c := by
  induction m with
  | nil => simp [Memory.erase]
  | cons e m ih =>
    obtain ⟨b, w⟩ := e
    unfold Memory.erase at ih ⊢
    by_cases hb : b = a
    · simp only [List.filter_cons, hb, bne_self_eq_false, Bool.false_eq_true, if_false, ih, Memory.read_cons]
      split <;> rename_i hc
      · rfl
      · rw [if_neg (Ne.symm hc)]
    · simp only [List.filter_cons, bne_iff_ne, ne_eq, hb, not_false_eq_true, if_true, Memory.read_cons, ih]
      by_cases hbc : b = c
      · simp only [hbc, if_true, if_neg (hbc ▸ hb)]
      · simp only [hbc, if_false]

theorem Memory.read_insert (m : Memory) (a c : Nat) (v : Byte) (h : m.read a = Memory.unlisted)
    (hm : ∀ e ∈ m, e.1 ≠ a) : (m.insert a v).read c = if c = a then v else m.read c := by
  induction m with
  | nil => simp only [Memory.insert, Memory.read_cons, Memory.read_nil, eq_comm]
  | cons e m ih =>
    obtain ⟨b, w⟩ := e
    have hb : b ≠ a := hm (b, w) List.mem_cons_self
    unfold Memory.insert
    split
    · simp only [Memory.read_cons, eq_comm]
    · rw [Memory.read_cons, if_neg hb] at h
      rw [Memory.read_cons, ih h fun e he => hm e (List.mem_cons_of_mem _ he), Memory.read_cons]
      by_cases hc : b = c
      · rw [if_pos hc, if_neg (hc ▸ hb), if_pos hc]
      · rw [if_neg hc, if_neg hc]

theorem Memory.erase_ne (m : Memory) (a : Nat) : ∀ e ∈ m.erase a, e.1 ≠ a := by
  intro e he
  simpa using (List.mem_filter.1 he).2

/-- A read after a write gives the byte written there and leaves every other address alone, in every memory (R42, R44). -/
theorem Memory.read_write (m : Memory) (a c : Nat) (v : Byte) :
    (m.write a v).read c = if c = a then v else m.read c := by
  unfold Memory.write
  split <;> rename_i hv
  · rw [Memory.read_erase, hv]
  · rw [Memory.read_insert _ _ _ _ (by rw [Memory.read_erase, if_pos rfl]) (m.erase_ne a), Memory.read_erase]
    split <;> rfl

@[simp] theorem Memory.read_write_same (m : Memory) (a : Nat) (v : Byte) : (m.write a v).read a = v := by
  rw [Memory.read_write, if_pos rfl]

theorem Memory.read_write_other (m : Memory) {a c : Nat} (h : c ≠ a) (v : Byte) : (m.write a v).read c = m.read c := by
  rw [Memory.read_write, if_neg h]

/-- A block write puts its k-th byte at `a + k` and leaves every other address alone. -/
theorem Memory.read_writeBytes (vs : List Byte) (m : Memory) (a c : Nat) :
    (m.writeBytes a vs).read c = if h : a ≤ c ∧ c - a < vs.length then vs[c - a]'h.2 else m.read c := by
  induction vs generalizing m a with
  | nil => simp [Memory.writeBytes]
  | cons v vs ih =>
    rw [Memory.writeBytes, ih, Memory.read_write]
    by_cases hca : c = a
    · subst hca; simp
    · by_cases hlt : a + 1 ≤ c
      · have e : c - a = (c - (a + 1)) + 1 := by omega
        have h1 : a ≤ c := by omega
        simp only [hlt, h1, true_and, hca, if_false, e, List.length_cons, Nat.add_lt_add_iff_right, List.getElem_cons_succ]
      · have h1 : ¬ a ≤ c := by omega
        simp only [hlt, h1, false_and, dite_false, hca, if_false]

theorem Memory.read_writeBytes_outside (m : Memory) {a c : Nat} {vs : List Byte} (h : c < a ∨ a + vs.length ≤ c) :
    (m.writeBytes a vs).read c = m.read c := by
  rw [Memory.read_writeBytes, dif_neg]
  omega

@[simp] theorem Memory.length_readBytes (m : Memory) (a n : Nat) : (m.readBytes a n).length = n := by
  induction n generalizing a with
  | zero => rfl
  | succ n ih => simp [Memory.readBytes, ih]

theorem Memory.getElem_readBytes (m : Memory) (a n k : Nat) (h : k < (m.readBytes a n).length) :
    (m.readBytes a n)[k] = m.read (a + k) := by
  induction n generalizing a k with
  | zero => simp [Memory.readBytes] at h
  | succ n ih =>
    cases k with
    | zero => rfl
    | succ k =>
      simp only [Memory.readBytes, List.getElem_cons_succ]
      rw [ih (a + 1) k (by simpa using h)]
      congr 1; omega

/-! ### Block accesses -/

theorem inBounds_iff (a n : Nat) : inBounds a n = true ↔ n = 0 ∨ a + n ≤ 4096 := by
  simp only [inBounds, Bool.or_eq_true, beq_iff_eq, decide_eq_true_eq]
  exact Iff.rfl

/-- What a block read can do: the bytes when every address is in 0 to 4095, else nothing (R38). -/
theorem Memory.load_cases (m : Memory) (a n : Nat) :
    ((n = 0 ∨ a + n ≤ 4096) ∧ m.load a n = some (m.readBytes a n)) ∨ (n ≠ 0 ∧ 4096 < a + n ∧ m.load a n = none) := by
  unfold Memory.load
  by_cases h : inBounds a n = true
  · exact .inl ⟨(inBounds_iff a n).1 h, if_pos h⟩
  · refine .inr ?_
    rw [inBounds_iff] at h
    exact ⟨by omega, by omega, if_neg (by rw [inBounds_iff]; exact h)⟩

theorem Memory.load_of_inBounds (m : Memory) {a n : Nat} (h : n = 0 ∨ a + n ≤ 4096) :
    m.load a n = some (m.readBytes a n) := if_pos ((inBounds_iff a n).2 h)

theorem Memory.load_of_outOfBounds (m : Memory) {a n : Nat} (hn : n ≠ 0) (h : 4096 < a + n) : m.load a n = none :=
  if_neg (by rw [inBounds_iff]; omega)

/-- What a block write can do: all its bytes when every address is in 0 to 4095, else nothing (R38, R128). -/
theorem Memory.store_cases (m : Memory) (a : Nat) (vs : List Byte) :
    ((vs = [] ∨ a + vs.length ≤ 4096) ∧ m.store a vs = some (m.writeBytes a vs)) ∨
      (vs ≠ [] ∧ 4096 < a + vs.length ∧ m.store a vs = none) := by
  unfold Memory.store
  by_cases h : inBounds a vs.length = true
  · refine .inl ⟨?_, if_pos h⟩
    simpa using (inBounds_iff a vs.length).1 h
  · refine .inr ?_
    have h' := h
    rw [inBounds_iff] at h'
    simp only [List.length_eq_zero_iff, not_or, not_le] at h'
    exact ⟨h'.1, h'.2, if_neg h⟩

theorem Memory.store_of_inBounds (m : Memory) {a : Nat} {vs : List Byte} (h : a + vs.length ≤ 4096) :
    m.store a vs = some (m.writeBytes a vs) := if_pos ((inBounds_iff a _).2 (.inr h))

theorem Memory.store_of_outOfBounds (m : Memory) {a : Nat} {vs : List Byte} (hn : vs ≠ []) (h : 4096 < a + vs.length) :
    m.store a vs = none :=
  if_neg (by
    have := List.length_pos_iff.2 hn
    rw [inBounds_iff]; omega)

/-! ### The canonical form -/

theorem Memory.wfFrom_cons (lo a : Nat) (v : Byte) (m : Memory) :
    Memory.wfFrom lo ((a, v) :: m) = true ↔ lo ≤ a ∧ a < 4096 ∧ v ≠ 0#8 ∧ Memory.wfFrom (a + 1) m = true := by
  simp only [Memory.wfFrom, Bool.and_eq_true, decide_eq_true_eq, bne_iff_ne, ne_eq, and_assoc]
  exact Iff.rfl

theorem Memory.wfFrom_mono {lo lo' : Nat} {m : Memory} (h : lo ≤ lo') (hm : m.wfFrom lo' = true) : m.wfFrom lo = true := by
  cases m with
  | nil => rfl
  | cons e m =>
    rw [Memory.wfFrom_cons] at hm ⊢
    exact ⟨by omega, hm.2⟩

theorem Memory.erase_wf {lo : Nat} {m : Memory} (a : Nat) (hm : m.wfFrom lo = true) : (m.erase a).wfFrom lo = true := by
  induction m generalizing lo with
  | nil => rfl
  | cons e m ih =>
    obtain ⟨b, w⟩ := e
    rw [Memory.wfFrom_cons] at hm
    unfold Memory.erase at ih ⊢
    rw [List.filter_cons]
    split
    · rw [Memory.wfFrom_cons]
      exact ⟨hm.1, hm.2.1, hm.2.2.1, ih hm.2.2.2⟩
    · exact Memory.wfFrom_mono (by omega) (ih hm.2.2.2)

theorem Memory.insert_wf {lo a : Nat} {m : Memory} {v : Byte} (hlo : lo ≤ a) (ha : a < 4096) (hv : v ≠ 0#8)
    (hne : ∀ e ∈ m, e.1 ≠ a) (hm : m.wfFrom lo = true) : (m.insert a v).wfFrom lo = true := by
  induction m generalizing lo with
  | nil => rw [Memory.insert, Memory.wfFrom_cons]; exact ⟨hlo, ha, hv, rfl⟩
  | cons e m ih =>
    obtain ⟨b, w⟩ := e
    have hba : b ≠ a := hne (b, w) List.mem_cons_self
    rw [Memory.wfFrom_cons] at hm
    unfold Memory.insert
    split
    · rw [Memory.wfFrom_cons, Memory.wfFrom_cons]
      exact ⟨hlo, ha, hv, by omega, hm.2⟩
    · rw [Memory.wfFrom_cons]
      exact ⟨hm.1, hm.2.1, hm.2.2.1,
        ih (by omega) (fun e he => hne e (List.mem_cons_of_mem _ he)) hm.2.2.2⟩

/-- A write inside `MEM` keeps the canonical form. -/
theorem Memory.write_wf {m : Memory} {a : Nat} (v : Byte) (ha : a < 4096) (hm : m.wf = true) : (m.write a v).wf = true := by
  unfold Memory.write
  split <;> rename_i hv
  · exact Memory.erase_wf a hm
  · exact Memory.insert_wf (Nat.zero_le a) ha hv (m.erase_ne a) (Memory.erase_wf a hm)

/-- A block write inside `MEM` keeps the canonical form. -/
theorem Memory.writeBytes_wf {m : Memory} {a : Nat} {vs : List Byte} (ha : a + vs.length ≤ 4096) (hm : m.wf = true) :
    (m.writeBytes a vs).wf = true := by
  induction vs generalizing m a with
  | nil => exact hm
  | cons v vs ih =>
    rw [List.length_cons] at ha
    exact ih (by omega) (Memory.write_wf v (by omega) hm)

/-- A block store keeps the canonical form. -/
theorem Memory.store_wf {m m' : Memory} {a : Nat} {vs : List Byte} (h : m.store a vs = some m') (hm : m.wf = true) :
    m'.wf = true := by
  rcases m.store_cases a vs with ⟨hb, he⟩ | ⟨-, -, he⟩
  · rw [he] at h
    obtain rfl : m.writeBytes a vs = m' := by simpa using h
    rcases hb with rfl | hb
    · exact hm
    · exact Memory.writeBytes_wf hb hm
  · rw [he] at h
    exact absurd h (by simp)

theorem Memory.reset_wf : State.reset.mem.wf = true := rfl

theorem Memory.read_below {lo a : Nat} {m : Memory} (hm : m.wfFrom lo = true) (ha : a < lo) :
    m.read a = Memory.unlisted := by
  induction m generalizing lo with
  | nil => rfl
  | cons e m ih =>
    obtain ⟨b, w⟩ := e
    rw [Memory.wfFrom_cons] at hm
    rw [Memory.read_cons, if_neg (by omega)]
    exact ih hm.2.2.2 (by omega)

/-- In canonical form two memories that read the same are the same list. -/
theorem Memory.eq_of_read_eq {lo : Nat} {m m' : Memory} (hm : m.wfFrom lo = true) (hm' : m'.wfFrom lo = true)
    (h : ∀ a, m.read a = m'.read a) : m = m' := by
  induction m generalizing lo m' with
  | nil =>
    cases m' with
    | nil => rfl
    | cons e m' =>
      obtain ⟨b, w⟩ := e
      rw [Memory.wfFrom_cons] at hm'
      have := h b
      rw [Memory.read_nil, Memory.read_cons, if_pos rfl] at this
      exact absurd this.symm hm'.2.2.1
  | cons e m ih =>
    obtain ⟨b, w⟩ := e
    rw [Memory.wfFrom_cons] at hm
    cases m' with
    | nil =>
      have := h b
      rw [Memory.read_nil, Memory.read_cons, if_pos rfl] at this
      exact absurd this hm.2.2.1
    | cons e' m' =>
      obtain ⟨c, u⟩ := e'
      rw [Memory.wfFrom_cons] at hm'
      have hbc : b = c := by
        rcases Nat.lt_trichotomy b c with hlt | heq | hgt
        · have := h b
          rw [Memory.read_cons, if_pos rfl, Memory.read_cons, if_neg (by omega),
            Memory.read_below hm'.2.2.2 (by omega)] at this
          exact absurd this hm.2.2.1
        · exact heq
        · have := h c
          rw [Memory.read_cons, if_neg (by omega), Memory.read_below hm.2.2.2 (by omega), Memory.read_cons,
            if_pos rfl] at this
          exact absurd this.symm hm'.2.2.1
      subst hbc
      have hwu : w = u := by simpa [Memory.read_cons] using h b
      subst hwu
      congr 1
      refine ih hm.2.2.2 hm'.2.2.2 fun a => ?_
      by_cases hab : b = a
      · rw [Memory.read_below hm.2.2.2 (by omega), Memory.read_below hm'.2.2.2 (by omega)]
      · simpa [Memory.read_cons, hab] using h a

end Sys2Proof.Machine
end

