-- ==== Sys2Proof/Laws/State.lean ====
section
/-! SUPPORT. One lemma per field per update of the state, and the registers, stack entries and pixels read after an update. -/

namespace Sys2Proof.Machine

variable (s : State)

/-! ### setV -/

@[simp] theorem State.setV_v (x : Reg) (b : Byte) : (s.setV x b).v = s.v.set x b := rfl
@[simp] theorem State.setV_i (x : Reg) (b : Byte) : (s.setV x b).i = s.i := rfl
@[simp] theorem State.setV_pc (x : Reg) (b : Byte) : (s.setV x b).pc = s.pc := rfl
@[simp] theorem State.setV_stack (x : Reg) (b : Byte) : (s.setV x b).stack = s.stack := rfl
@[simp] theorem State.setV_sp (x : Reg) (b : Byte) : (s.setV x b).sp = s.sp := rfl
@[simp] theorem State.setV_dt (x : Reg) (b : Byte) : (s.setV x b).dt = s.dt := rfl
@[simp] theorem State.setV_st (x : Reg) (b : Byte) : (s.setV x b).st = s.st := rfl
@[simp] theorem State.setV_keys (x : Reg) (b : Byte) : (s.setV x b).keys = s.keys := rfl
@[simp] theorem State.setV_fb (x : Reg) (b : Byte) : (s.setV x b).fb = s.fb := rfl
@[simp] theorem State.setV_redraw (x : Reg) (b : Byte) : (s.setV x b).redraw = s.redraw := rfl
@[simp] theorem State.setV_mem (x : Reg) (b : Byte) : (s.setV x b).mem = s.mem := rfl
@[simp] theorem State.setV_fault (x : Reg) (b : Byte) : (s.setV x b).fault = s.fault := rfl
@[simp] theorem State.setV_draws (x : Reg) (b : Byte) : (s.setV x b).draws = s.draws := rfl

/-! ### setI -/

@[simp] theorem State.setI_v (a : Word) : (s.setI a).v = s.v := rfl
@[simp] theorem State.setI_i (a : Word) : (s.setI a).i = a := rfl
@[simp] theorem State.setI_pc (a : Word) : (s.setI a).pc = s.pc := rfl
@[simp] theorem State.setI_stack (a : Word) : (s.setI a).stack = s.stack := rfl
@[simp] theorem State.setI_sp (a : Word) : (s.setI a).sp = s.sp := rfl
@[simp] theorem State.setI_dt (a : Word) : (s.setI a).dt = s.dt := rfl
@[simp] theorem State.setI_st (a : Word) : (s.setI a).st = s.st := rfl
@[simp] theorem State.setI_keys (a : Word) : (s.setI a).keys = s.keys := rfl
@[simp] theorem State.setI_fb (a : Word) : (s.setI a).fb = s.fb := rfl
@[simp] theorem State.setI_redraw (a : Word) : (s.setI a).redraw = s.redraw := rfl
@[simp] theorem State.setI_mem (a : Word) : (s.setI a).mem = s.mem := rfl
@[simp] theorem State.setI_fault (a : Word) : (s.setI a).fault = s.fault := rfl
@[simp] theorem State.setI_draws (a : Word) : (s.setI a).draws = s.draws := rfl

/-! ### setPc -/

@[simp] theorem State.setPc_v (a : Word) : (s.setPc a).v = s.v := rfl
@[simp] theorem State.setPc_i (a : Word) : (s.setPc a).i = s.i := rfl
@[simp] theorem State.setPc_pc (a : Word) : (s.setPc a).pc = a := rfl
@[simp] theorem State.setPc_stack (a : Word) : (s.setPc a).stack = s.stack := rfl
@[simp] theorem State.setPc_sp (a : Word) : (s.setPc a).sp = s.sp := rfl
@[simp] theorem State.setPc_dt (a : Word) : (s.setPc a).dt = s.dt := rfl
@[simp] theorem State.setPc_st (a : Word) : (s.setPc a).st = s.st := rfl
@[simp] theorem State.setPc_keys (a : Word) : (s.setPc a).keys = s.keys := rfl
@[simp] theorem State.setPc_fb (a : Word) : (s.setPc a).fb = s.fb := rfl
@[simp] theorem State.setPc_redraw (a : Word) : (s.setPc a).redraw = s.redraw := rfl
@[simp] theorem State.setPc_mem (a : Word) : (s.setPc a).mem = s.mem := rfl
@[simp] theorem State.setPc_fault (a : Word) : (s.setPc a).fault = s.fault := rfl
@[simp] theorem State.setPc_draws (a : Word) : (s.setPc a).draws = s.draws := rfl

/-! ### setDt -/

@[simp] theorem State.setDt_v (b : Byte) : (s.setDt b).v = s.v := rfl
@[simp] theorem State.setDt_i (b : Byte) : (s.setDt b).i = s.i := rfl
@[simp] theorem State.setDt_pc (b : Byte) : (s.setDt b).pc = s.pc := rfl
@[simp] theorem State.setDt_stack (b : Byte) : (s.setDt b).stack = s.stack := rfl
@[simp] theorem State.setDt_sp (b : Byte) : (s.setDt b).sp = s.sp := rfl
@[simp] theorem State.setDt_dt (b : Byte) : (s.setDt b).dt = b := rfl
@[simp] theorem State.setDt_st (b : Byte) : (s.setDt b).st = s.st := rfl
@[simp] theorem State.setDt_keys (b : Byte) : (s.setDt b).keys = s.keys := rfl
@[simp] theorem State.setDt_fb (b : Byte) : (s.setDt b).fb = s.fb := rfl
@[simp] theorem State.setDt_redraw (b : Byte) : (s.setDt b).redraw = s.redraw := rfl
@[simp] theorem State.setDt_mem (b : Byte) : (s.setDt b).mem = s.mem := rfl
@[simp] theorem State.setDt_fault (b : Byte) : (s.setDt b).fault = s.fault := rfl
@[simp] theorem State.setDt_draws (b : Byte) : (s.setDt b).draws = s.draws := rfl

/-! ### setSt -/

@[simp] theorem State.setSt_v (b : Byte) : (s.setSt b).v = s.v := rfl
@[simp] theorem State.setSt_i (b : Byte) : (s.setSt b).i = s.i := rfl
@[simp] theorem State.setSt_pc (b : Byte) : (s.setSt b).pc = s.pc := rfl
@[simp] theorem State.setSt_stack (b : Byte) : (s.setSt b).stack = s.stack := rfl
@[simp] theorem State.setSt_sp (b : Byte) : (s.setSt b).sp = s.sp := rfl
@[simp] theorem State.setSt_dt (b : Byte) : (s.setSt b).dt = s.dt := rfl
@[simp] theorem State.setSt_st (b : Byte) : (s.setSt b).st = b := rfl
@[simp] theorem State.setSt_keys (b : Byte) : (s.setSt b).keys = s.keys := rfl
@[simp] theorem State.setSt_fb (b : Byte) : (s.setSt b).fb = s.fb := rfl
@[simp] theorem State.setSt_redraw (b : Byte) : (s.setSt b).redraw = s.redraw := rfl
@[simp] theorem State.setSt_mem (b : Byte) : (s.setSt b).mem = s.mem := rfl
@[simp] theorem State.setSt_fault (b : Byte) : (s.setSt b).fault = s.fault := rfl
@[simp] theorem State.setSt_draws (b : Byte) : (s.setSt b).draws = s.draws := rfl

/-! ### setMem -/

@[simp] theorem State.setMem_v (m : Memory) : (s.setMem m).v = s.v := rfl
@[simp] theorem State.setMem_i (m : Memory) : (s.setMem m).i = s.i := rfl
@[simp] theorem State.setMem_pc (m : Memory) : (s.setMem m).pc = s.pc := rfl
@[simp] theorem State.setMem_stack (m : Memory) : (s.setMem m).stack = s.stack := rfl
@[simp] theorem State.setMem_sp (m : Memory) : (s.setMem m).sp = s.sp := rfl
@[simp] theorem State.setMem_dt (m : Memory) : (s.setMem m).dt = s.dt := rfl
@[simp] theorem State.setMem_st (m : Memory) : (s.setMem m).st = s.st := rfl
@[simp] theorem State.setMem_keys (m : Memory) : (s.setMem m).keys = s.keys := rfl
@[simp] theorem State.setMem_fb (m : Memory) : (s.setMem m).fb = s.fb := rfl
@[simp] theorem State.setMem_redraw (m : Memory) : (s.setMem m).redraw = s.redraw := rfl
@[simp] theorem State.setMem_mem (m : Memory) : (s.setMem m).mem = m := rfl
@[simp] theorem State.setMem_fault (m : Memory) : (s.setMem m).fault = s.fault := rfl
@[simp] theorem State.setMem_draws (m : Memory) : (s.setMem m).draws = s.draws := rfl

/-! ### setRedraw -/

@[simp] theorem State.setRedraw_v (b : Bool) : (s.setRedraw b).v = s.v := rfl
@[simp] theorem State.setRedraw_i (b : Bool) : (s.setRedraw b).i = s.i := rfl
@[simp] theorem State.setRedraw_pc (b : Bool) : (s.setRedraw b).pc = s.pc := rfl
@[simp] theorem State.setRedraw_stack (b : Bool) : (s.setRedraw b).stack = s.stack := rfl
@[simp] theorem State.setRedraw_sp (b : Bool) : (s.setRedraw b).sp = s.sp := rfl
@[simp] theorem State.setRedraw_dt (b : Bool) : (s.setRedraw b).dt = s.dt := rfl
@[simp] theorem State.setRedraw_st (b : Bool) : (s.setRedraw b).st = s.st := rfl
@[simp] theorem State.setRedraw_keys (b : Bool) : (s.setRedraw b).keys = s.keys := rfl
@[simp] theorem State.setRedraw_fb (b : Bool) : (s.setRedraw b).fb = s.fb := rfl
@[simp] theorem State.setRedraw_redraw (b : Bool) : (s.setRedraw b).redraw = b := rfl
@[simp] theorem State.setRedraw_mem (b : Bool) : (s.setRedraw b).mem = s.mem := rfl
@[simp] theorem State.setRedraw_fault (b : Bool) : (s.setRedraw b).fault = s.fault := rfl
@[simp] theorem State.setRedraw_draws (b : Bool) : (s.setRedraw b).draws = s.draws := rfl

/-! ### raise -/

@[simp] theorem State.raise_v (k : ErrorKind) : (s.raise k).v = s.v := rfl
@[simp] theorem State.raise_i (k : ErrorKind) : (s.raise k).i = s.i := rfl
@[simp] theorem State.raise_pc (k : ErrorKind) : (s.raise k).pc = s.pc := rfl
@[simp] theorem State.raise_stack (k : ErrorKind) : (s.raise k).stack = s.stack := rfl
@[simp] theorem State.raise_sp (k : ErrorKind) : (s.raise k).sp = s.sp := rfl
@[simp] theorem State.raise_dt (k : ErrorKind) : (s.raise k).dt = s.dt := rfl
@[simp] theorem State.raise_st (k : ErrorKind) : (s.raise k).st = s.st := rfl
@[simp] theorem State.raise_keys (k : ErrorKind) : (s.raise k).keys = s.keys := rfl
@[simp] theorem State.raise_fb (k : ErrorKind) : (s.raise k).fb = s.fb := rfl
@[simp] theorem State.raise_redraw (k : ErrorKind) : (s.raise k).redraw = s.redraw := rfl
@[simp] theorem State.raise_mem (k : ErrorKind) : (s.raise k).mem = s.mem := rfl
@[simp] theorem State.raise_fault (k : ErrorKind) : (s.raise k).fault = some k := rfl
@[simp] theorem State.raise_draws (k : ErrorKind) : (s.raise k).draws = s.draws := rfl

/-! ### setPixel -/

@[simp] theorem State.setPixel_v (x : Fin 64) (y : Fin 32) (b : Bool) : (s.setPixel x y b).v = s.v := rfl
@[simp] theorem State.setPixel_i (x : Fin 64) (y : Fin 32) (b : Bool) : (s.setPixel x y b).i = s.i := rfl
@[simp] theorem State.setPixel_pc (x : Fin 64) (y : Fin 32) (b : Bool) : (s.setPixel x y b).pc = s.pc := rfl
@[simp] theorem State.setPixel_stack (x : Fin 64) (y : Fin 32) (b : Bool) : (s.setPixel x y b).stack = s.stack := rfl
@[simp] theorem State.setPixel_sp (x : Fin 64) (y : Fin 32) (b : Bool) : (s.setPixel x y b).sp = s.sp := rfl
@[simp] theorem State.setPixel_dt (x : Fin 64) (y : Fin 32) (b : Bool) : (s.setPixel x y b).dt = s.dt := rfl
@[simp] theorem State.setPixel_st (x : Fin 64) (y : Fin 32) (b : Bool) : (s.setPixel x y b).st = s.st := rfl
@[simp] theorem State.setPixel_keys (x : Fin 64) (y : Fin 32) (b : Bool) : (s.setPixel x y b).keys = s.keys := rfl
@[simp] theorem State.setPixel_fb (x : Fin 64) (y : Fin 32) (b : Bool) : (s.setPixel x y b).fb = s.fb.set y (s.fb[y].set x b) := rfl
@[simp] theorem State.setPixel_redraw (x : Fin 64) (y : Fin 32) (b : Bool) : (s.setPixel x y b).redraw = s.redraw := rfl
@[simp] theorem State.setPixel_mem (x : Fin 64) (y : Fin 32) (b : Bool) : (s.setPixel x y b).mem = s.mem := rfl
@[simp] theorem State.setPixel_fault (x : Fin 64) (y : Fin 32) (b : Bool) : (s.setPixel x y b).fault = s.fault := rfl
@[simp] theorem State.setPixel_draws (x : Fin 64) (y : Fin 32) (b : Bool) : (s.setPixel x y b).draws = s.draws := rfl

/-! ### drawn -/

@[simp] theorem State.drawn_v : (s.drawn).v = s.v := rfl
@[simp] theorem State.drawn_i : (s.drawn).i = s.i := rfl
@[simp] theorem State.drawn_pc : (s.drawn).pc = s.pc := rfl
@[simp] theorem State.drawn_stack : (s.drawn).stack = s.stack := rfl
@[simp] theorem State.drawn_sp : (s.drawn).sp = s.sp := rfl
@[simp] theorem State.drawn_dt : (s.drawn).dt = s.dt := rfl
@[simp] theorem State.drawn_st : (s.drawn).st = s.st := rfl
@[simp] theorem State.drawn_keys : (s.drawn).keys = s.keys := rfl
@[simp] theorem State.drawn_fb : (s.drawn).fb = s.fb := rfl
@[simp] theorem State.drawn_redraw : (s.drawn).redraw = s.redraw := rfl
@[simp] theorem State.drawn_mem : (s.drawn).mem = s.mem := rfl
@[simp] theorem State.drawn_fault : (s.drawn).fault = s.fault := rfl
@[simp] theorem State.drawn_draws : (s.drawn).draws = s.draws + 1 := rfl

/-! ### rewind -/

@[simp] theorem State.rewind_v : (s.rewind).v = s.v := rfl
@[simp] theorem State.rewind_i : (s.rewind).i = s.i := rfl
@[simp] theorem State.rewind_pc : (s.rewind).pc = s.pc - 2#16 := rfl
@[simp] theorem State.rewind_stack : (s.rewind).stack = s.stack := rfl
@[simp] theorem State.rewind_sp : (s.rewind).sp = s.sp := rfl
@[simp] theorem State.rewind_dt : (s.rewind).dt = s.dt := rfl
@[simp] theorem State.rewind_st : (s.rewind).st = s.st := rfl
@[simp] theorem State.rewind_keys : (s.rewind).keys = s.keys := rfl
@[simp] theorem State.rewind_fb : (s.rewind).fb = s.fb := rfl
@[simp] theorem State.rewind_redraw : (s.rewind).redraw = s.redraw := rfl
@[simp] theorem State.rewind_mem : (s.rewind).mem = s.mem := rfl
@[simp] theorem State.rewind_fault : (s.rewind).fault = s.fault := rfl
@[simp] theorem State.rewind_draws : (s.rewind).draws = s.draws := rfl

/-! ### skipIf -/

@[simp] theorem State.skipIf_v (c : Bool) : (s.skipIf c).v = s.v := by cases c <;> rfl
@[simp] theorem State.skipIf_i (c : Bool) : (s.skipIf c).i = s.i := by cases c <;> rfl
@[simp] theorem State.skipIf_pc (c : Bool) : (s.skipIf c).pc = if c then s.pc + 2#16 else s.pc := by
  cases c <;> rfl
@[simp] theorem State.skipIf_stack (c : Bool) : (s.skipIf c).stack = s.stack := by cases c <;> rfl
@[simp] theorem State.skipIf_sp (c : Bool) : (s.skipIf c).sp = s.sp := by cases c <;> rfl
@[simp] theorem State.skipIf_dt (c : Bool) : (s.skipIf c).dt = s.dt := by cases c <;> rfl
@[simp] theorem State.skipIf_st (c : Bool) : (s.skipIf c).st = s.st := by cases c <;> rfl
@[simp] theorem State.skipIf_keys (c : Bool) : (s.skipIf c).keys = s.keys := by cases c <;> rfl
@[simp] theorem State.skipIf_fb (c : Bool) : (s.skipIf c).fb = s.fb := by cases c <;> rfl
@[simp] theorem State.skipIf_redraw (c : Bool) : (s.skipIf c).redraw = s.redraw := by cases c <;> rfl
@[simp] theorem State.skipIf_mem (c : Bool) : (s.skipIf c).mem = s.mem := by cases c <;> rfl
@[simp] theorem State.skipIf_fault (c : Bool) : (s.skipIf c).fault = s.fault := by cases c <;> rfl
@[simp] theorem State.skipIf_draws (c : Bool) : (s.skipIf c).draws = s.draws := by cases c <;> rfl

/-! ### Registers, stack entries and pixels -/

/-- A register read after a register write (R14). -/
theorem State.getV_setV (x r : Reg) (b : Byte) : (s.setV x b).getV r = if r = x then b else s.getV r := by
  simp only [State.getV, State.setV_v, Fin.getElem_fin, Vector.getElem_set, Fin.ext_iff, eq_comm]

@[simp] theorem State.getV_setV_same (x : Reg) (b : Byte) : (s.setV x b).getV x = b := by
  rw [State.getV_setV, if_pos rfl]

theorem State.getV_setV_other {x r : Reg} (h : r ≠ x) (b : Byte) : (s.setV x b).getV r = s.getV r := by
  rw [State.getV_setV, if_neg h]

/-- Two states with the same register file read the same in every register. -/
theorem State.getV_congr {s t : State} (h : t.v = s.v) (r : Reg) : t.getV r = s.getV r := by
  simp only [State.getV, h]

@[simp] theorem State.getV_setI (a : Word) (r : Reg) : (s.setI a).getV r = s.getV r := rfl
@[simp] theorem State.getV_setPc (a : Word) (r : Reg) : (s.setPc a).getV r = s.getV r := rfl
@[simp] theorem State.getV_setDt (b : Byte) (r : Reg) : (s.setDt b).getV r = s.getV r := rfl
@[simp] theorem State.getV_setSt (b : Byte) (r : Reg) : (s.setSt b).getV r = s.getV r := rfl
@[simp] theorem State.getV_setMem (m : Memory) (r : Reg) : (s.setMem m).getV r = s.getV r := rfl
@[simp] theorem State.getV_setRedraw (b : Bool) (r : Reg) : (s.setRedraw b).getV r = s.getV r := rfl
@[simp] theorem State.getV_raise (k : ErrorKind) (r : Reg) : (s.raise k).getV r = s.getV r := rfl
@[simp] theorem State.getV_setPixel (x : Fin 64) (y : Fin 32) (b : Bool) (r : Reg) : (s.setPixel x y b).getV r = s.getV r := rfl
@[simp] theorem State.getV_drawn (r : Reg) : (s.drawn).getV r = s.getV r := rfl
@[simp] theorem State.getV_rewind (r : Reg) : (s.rewind).getV r = s.getV r := rfl
@[simp] theorem State.getV_skipIf (c : Bool) (r : Reg) : (s.skipIf c).getV r = s.getV r := State.getV_congr (s.skipIf_v c) r

/-- A pixel read after a pixel write: FB[y][x] is one bit of its own (R25). -/
theorem State.getPixel_setPixel (x x' : Fin 64) (y y' : Fin 32) (b : Bool) :
    (s.setPixel x y b).getPixel x' y' = if x' = x ∧ y' = y then b else s.getPixel x' y' := by
  simp only [State.getPixel, State.setPixel_fb, Fin.getElem_fin, Vector.getElem_set, Fin.ext_iff]
  by_cases hy : y.val = y'.val
  · simp only [hy, if_true, Vector.getElem_set, and_true, eq_comm]
  · simp only [hy, if_false, Ne.symm hy, and_false]

/-- Two states with the same display read the same in every pixel. -/
theorem State.getPixel_congr {s t : State} (h : t.fb = s.fb) (x : Fin 64) (y : Fin 32) :
    t.getPixel x y = s.getPixel x y := by
  simp only [State.getPixel, h]

/-- Two states with the same stack array read the same in every entry. -/
theorem State.stackAt_congr {s t : State} (h : t.stack = s.stack) (k : Fin 16) : t.stackAt k = s.stackAt k := by
  simp only [State.stackAt, h]

@[simp] theorem State.getPixel_setV (x : Reg) (b : Byte) (x' : Fin 64) (y' : Fin 32) : (s.setV x b).getPixel x' y' = s.getPixel x' y' := rfl
@[simp] theorem State.getPixel_setI (a : Word) (x' : Fin 64) (y' : Fin 32) : (s.setI a).getPixel x' y' = s.getPixel x' y' := rfl
@[simp] theorem State.getPixel_setPc (a : Word) (x' : Fin 64) (y' : Fin 32) : (s.setPc a).getPixel x' y' = s.getPixel x' y' := rfl
@[simp] theorem State.getPixel_setDt (b : Byte) (x' : Fin 64) (y' : Fin 32) : (s.setDt b).getPixel x' y' = s.getPixel x' y' := rfl
@[simp] theorem State.getPixel_setSt (b : Byte) (x' : Fin 64) (y' : Fin 32) : (s.setSt b).getPixel x' y' = s.getPixel x' y' := rfl
@[simp] theorem State.getPixel_setMem (m : Memory) (x' : Fin 64) (y' : Fin 32) : (s.setMem m).getPixel x' y' = s.getPixel x' y' := rfl
@[simp] theorem State.getPixel_setRedraw (b : Bool) (x' : Fin 64) (y' : Fin 32) : (s.setRedraw b).getPixel x' y' = s.getPixel x' y' := rfl
@[simp] theorem State.getPixel_raise (k : ErrorKind) (x' : Fin 64) (y' : Fin 32) : (s.raise k).getPixel x' y' = s.getPixel x' y' := rfl
@[simp] theorem State.getPixel_drawn (x' : Fin 64) (y' : Fin 32) : (s.drawn).getPixel x' y' = s.getPixel x' y' := rfl
@[simp] theorem State.getPixel_rewind (x' : Fin 64) (y' : Fin 32) : (s.rewind).getPixel x' y' = s.getPixel x' y' := rfl

/-! ### The flag and the result -/

/-- The two writes of a flag-producing instruction, flag first (R84): the result re-reads the file after the flag write. -/
theorem State.setFlagAndResult_eq (x : Reg) (flag : State → Bool) (result : State → Byte) :
    s.setFlagAndResult x flag result =
      (s.setV vf (flagByte (flag s))).setV x (result (s.setV vf (flagByte (flag s)))) := rfl

/-- Without VF among the operands the destination holds the result and VF the flag (R84). -/
theorem State.getV_setFlagAndResult (x r : Reg) (flag : State → Bool) (result : State → Byte) :
    (s.setFlagAndResult x flag result).getV r =
      if r = x then result (s.setV vf (flagByte (flag s)))
      else if r = vf then flagByte (flag s) else s.getV r := by
  rw [State.setFlagAndResult_eq, State.getV_setV, State.getV_setV]

@[simp] theorem State.setFlagAndResult_i (x : Reg) (flag : State → Bool) (result : State → Byte) :
    (s.setFlagAndResult x flag result).i = s.i := rfl
@[simp] theorem State.setFlagAndResult_pc (x : Reg) (flag : State → Bool) (result : State → Byte) :
    (s.setFlagAndResult x flag result).pc = s.pc := rfl
@[simp] theorem State.setFlagAndResult_stack (x : Reg) (flag : State → Bool) (result : State → Byte) :
    (s.setFlagAndResult x flag result).stack = s.stack := rfl
@[simp] theorem State.setFlagAndResult_sp (x : Reg) (flag : State → Bool) (result : State → Byte) :
    (s.setFlagAndResult x flag result).sp = s.sp := rfl
@[simp] theorem State.setFlagAndResult_dt (x : Reg) (flag : State → Bool) (result : State → Byte) :
    (s.setFlagAndResult x flag result).dt = s.dt := rfl
@[simp] theorem State.setFlagAndResult_st (x : Reg) (flag : State → Bool) (result : State → Byte) :
    (s.setFlagAndResult x flag result).st = s.st := rfl
@[simp] theorem State.setFlagAndResult_keys (x : Reg) (flag : State → Bool) (result : State → Byte) :
    (s.setFlagAndResult x flag result).keys = s.keys := rfl
@[simp] theorem State.setFlagAndResult_fb (x : Reg) (flag : State → Bool) (result : State → Byte) :
    (s.setFlagAndResult x flag result).fb = s.fb := rfl
@[simp] theorem State.setFlagAndResult_redraw (x : Reg) (flag : State → Bool) (result : State → Byte) :
    (s.setFlagAndResult x flag result).redraw = s.redraw := rfl
@[simp] theorem State.setFlagAndResult_mem (x : Reg) (flag : State → Bool) (result : State → Byte) :
    (s.setFlagAndResult x flag result).mem = s.mem := rfl
@[simp] theorem State.setFlagAndResult_fault (x : Reg) (flag : State → Bool) (result : State → Byte) :
    (s.setFlagAndResult x flag result).fault = s.fault := rfl
@[simp] theorem State.setFlagAndResult_draws (x : Reg) (flag : State → Bool) (result : State → Byte) :
    (s.setFlagAndResult x flag result).draws = s.draws := rfl

/-! ### Live and dead cores -/

theorem State.ifLive_of_live {s : State} (h : s.fault = none) (op : State → State) : s.ifLive op = op s := by
  simp only [State.ifLive, h]

theorem State.ifLive_of_dead {s : State} {k : ErrorKind} (h : s.fault = some k) (op : State → State) : s.ifLive op = s := by
  simp only [State.ifLive, h]

/-- What a host operation can do: nothing on a dead core, itself on a live one (R127). -/
theorem State.ifLive_cases (op : State → State) :
    (s.fault = none ∧ s.ifLive op = op s) ∨ ((∃ k, s.fault = some k) ∧ s.ifLive op = s) := by
  cases h : s.fault with
  | none => exact .inl ⟨rfl, State.ifLive_of_live h op⟩
  | some k => exact .inr ⟨⟨k, rfl⟩, State.ifLive_of_dead h op⟩

end Sys2Proof.Machine
end

