-- ==== Sys2Proof/Laws/Ops.lean ====
section
/-! SUPPORT. What each shared operation can do: block register moves, the return stack, block stores, keys, operands. -/

namespace Sys2Proof.Machine

/-! ### Operands -/

@[simp] theorem toNat_addrOperand (nnn : Addr) : (addrOperand nnn).toNat = nnn.toNat :=
  BitVec.toNat_setWidth_of_le (by omega)

@[simp] theorem toNat_byteOperand (b : Byte) : (byteOperand b).toNat = b.toNat :=
  BitVec.toNat_setWidth_of_le (by omega)

@[simp] theorem length_bcdDigits (b : Byte) : (bcdDigits b).length = 3 := rfl

/-- The three digits, most significant first (spec/48_memops.md R119). -/
theorem toNat_bcdDigits (b : Byte) :
    (bcdDigits b).map BitVec.toNat = [b.toNat / 100, b.toNat / 10 % 10, b.toNat % 10] := by
  have := b.isLt
  simp only [bcdDigits, List.map_cons, List.map_nil, BitVec.toNat_ofNat]
  rw [Nat.mod_eq_of_lt (a := b.toNat / 100) (by omega), Nat.mod_eq_of_lt (a := b.toNat / 10 % 10) (by omega),
    Nat.mod_eq_of_lt (a := b.toNat % 10) (by omega)]

@[simp] theorem toNat_flagByte (c : Bool) : (flagByte c).toNat = if c then 1 else 0 := by cases c <;> rfl

/-- What a skip can do: add 2 to `PC`, or nothing (spec/41_skip.md R75). -/
theorem State.skipIf_cases (s : State) (c : Bool) :
    (c = true ∧ s.skipIf c = s.setPc (s.pc + 2#16)) ∨ (c = false ∧ s.skipIf c = s) := by
  cases c
  · exact .inr ⟨rfl, rfl⟩
  · exact .inl ⟨rfl, rfl⟩

/-! ### Block register moves -/

/-- Loading consecutive registers writes those registers and no other (spec/48_memops.md R121). -/
theorem State.getV_setRegs (bs : List Byte) (s : State) (k : Nat) (h : k + bs.length ≤ 16) (r : Reg) :
    (s.setRegs k bs).getV r =
      if hr : k ≤ r.val ∧ r.val - k < bs.length then bs[r.val - k]'hr.2 else s.getV r := by
  induction bs generalizing s k with
  | nil => simp [State.setRegs]
  | cons b bs ih =>
    rw [List.length_cons] at h
    rw [State.setRegs, ih _ _ (by omega), State.getV_setV]
    have hk : (Fin.ofNat 16 k).val = k := by rw [Fin.val_ofNat]; omega
    by_cases hrk : r.val = k
    · have he : r = Fin.ofNat 16 k := Fin.ext (hrk.trans hk.symm)
      have hn : ¬(k + 1 ≤ r.val ∧ r.val - (k + 1) < bs.length) := by omega
      have hp : k ≤ r.val ∧ r.val - k < (b :: bs).length := ⟨by omega, by rw [List.length_cons]; omega⟩
      rw [dif_neg hn, if_pos he, dif_pos hp]
      simp only [hrk, Nat.sub_self, List.getElem_cons_zero]
    · have he : r ≠ Fin.ofNat 16 k := fun hh => hrk (by rw [hh, hk])
      rw [if_neg he]
      by_cases hlt : k + 1 ≤ r.val ∧ r.val - (k + 1) < bs.length
      · have e : r.val - k = (r.val - (k + 1)) + 1 := by omega
        have hp : k ≤ r.val ∧ r.val - k < (b :: bs).length := ⟨by omega, by rw [List.length_cons]; omega⟩
        rw [dif_pos hlt, dif_pos hp]
        simp only [e, List.getElem_cons_succ]
      · have hn : ¬(k ≤ r.val ∧ r.val - k < (b :: bs).length) := by rw [List.length_cons]; omega
        rw [dif_neg hlt, dif_neg hn]

/-- What loading registers leaves alone: every other field. -/
theorem State.setRegs_frame (bs : List Byte) (s : State) (k : Nat) :
    (s.setRegs k bs).i = s.i ∧ (s.setRegs k bs).pc = s.pc ∧ (s.setRegs k bs).stack = s.stack ∧
      (s.setRegs k bs).sp = s.sp ∧ (s.setRegs k bs).dt = s.dt ∧ (s.setRegs k bs).st = s.st ∧
      (s.setRegs k bs).keys = s.keys ∧ (s.setRegs k bs).fb = s.fb ∧ (s.setRegs k bs).redraw = s.redraw ∧
      (s.setRegs k bs).mem = s.mem ∧ (s.setRegs k bs).fault = s.fault ∧ (s.setRegs k bs).draws = s.draws := by
  induction bs generalizing s k with
  | nil => exact ⟨rfl, rfl, rfl, rfl, rfl, rfl, rfl, rfl, rfl, rfl, rfl, rfl⟩
  | cons b bs ih => exact ih (s.setV (Fin.ofNat 16 k) b) (k + 1)

@[simp] theorem State.length_regsUpTo (s : State) (x : Reg) : (s.regsUpTo x).length = x.val + 1 := by
  simp [State.regsUpTo]

theorem State.getElem_regsUpTo (s : State) (x : Reg) (k : Nat) (h : k < (s.regsUpTo x).length) :
    (s.regsUpTo x)[k] = s.getV (Fin.ofNat 16 k) := by
  simp [State.regsUpTo]

/-! ### The return stack -/

/-- `Push` below 16 entries: the value becomes the newest entry (spec/10_state.md R22). -/
theorem State.push_of_lt (s : State) (a : Word) (h : s.sp.val < 16) :
    s.push a = some { s with stack := s.stack.set s.sp.val a, sp := ⟨s.sp.val + 1, by omega⟩ } := dif_pos h

/-- `Push` on a full stack raises. -/
theorem State.push_of_full (s : State) (a : Word) (h : s.sp.val = 16) : s.push a = none := dif_neg (by omega)

/-- `Pop` with an entry: the newest one, whose bits stay in the array (R22). -/
theorem State.pop_of_pos (s : State) (h : 0 < s.sp.val) :
    s.pop = some (s.stackAt ⟨s.sp.val - 1, by omega⟩, { s with sp := ⟨s.sp.val - 1, by omega⟩ }) := dif_pos h

/-- `Pop` on an empty stack raises. -/
theorem State.pop_of_empty (s : State) (h : s.sp.val = 0) : s.pop = none := dif_neg (by omega)

/-- The entries after a push: the new one at the old `SP`, the others as before. -/
theorem State.stackAt_set (s : State) (a : Word) (p : Fin 17) (h : p.val < 16) (k : Fin 16) :
    ({ s with stack := s.stack.set p.val a } : State).stackAt k = if k.val = p.val then a else s.stackAt k := by
  simp only [State.stackAt, Fin.getElem_fin, Vector.getElem_set, eq_comm]

/-! ### Block stores -/

/-- What a store at `I` can do (spec/48_memops.md R118): all its bytes, or `OutOfBoundsMemoryAccess` and no byte. -/
theorem State.storeAtI_cases (s : State) (bs : List Byte) :
    ((bs = [] ∨ s.base + bs.length ≤ 4096) ∧ s.storeAtI bs = s.setMem (s.mem.writeBytes s.base bs)) ∨
      (bs ≠ [] ∧ 4096 < s.base + bs.length ∧ s.storeAtI bs = s.raise .outOfBoundsMemoryAccess) := by
  unfold State.storeAtI
  rcases s.mem.store_cases s.base bs with ⟨h, he⟩ | ⟨h1, h2, he⟩
  · exact .inl ⟨h, by rw [he]⟩
  · exact .inr ⟨h1, h2, by rw [he]⟩

/-! ### Keys -/

theorem mem_heldKeys {keys : BitVec 16} {k : Nat} : k ∈ heldKeys keys ↔ k < 16 ∧ keys.getLsbD k = true := by
  simp [heldKeys]

theorem heldKeys_ne_nil {keys : BitVec 16} (h : keys ≠ 0#16) : heldKeys keys ≠ [] := by
  intro hn
  refine h (BitVec.eq_of_getLsbD_eq fun k hk => ?_)
  by_contra hb
  have hb' : keys.getLsbD k = true := by simpa using hb
  exact List.not_mem_nil (hn ▸ mem_heldKeys.2 ⟨hk, hb'⟩)

theorem keyHeld_iff {keys : BitVec 16} {b : Byte} :
    keyHeld keys b = true ↔ b.toNat ≤ 15 ∧ keys.getLsbD b.toNat = true := by
  simp only [keyHeld, Bool.and_eq_true, decide_eq_true_eq]

/-- `KeySel(S)` is a member of a non-empty `S` (spec/00_scope.md R9). -/
theorem keyHeld_keySel {keys : BitVec 16} (h : keys ≠ 0#16) (c : Nat) : keyHeld keys (keySel keys c) = true := by
  have hpos : 0 < (heldKeys keys).length := List.length_pos_iff.2 (heldKeys_ne_nil h)
  have hlt := Nat.mod_lt c hpos
  have hm := mem_heldKeys.1 (List.getElem_mem hlt)
  have hget : (heldKeys keys).getD (c % (heldKeys keys).length) 0 = (heldKeys keys)[c % (heldKeys keys).length] := by
    simp [List.getD_eq_getElem?_getD, List.getElem?_eq_getElem hlt]
  have hn : (keySel keys c).toNat = (heldKeys keys)[c % (heldKeys keys).length] := by
    rw [keySel, hget, BitVec.toNat_ofNat]
    exact Nat.mod_eq_of_lt (by omega)
  rw [keyHeld_iff, hn]
  exact ⟨by omega, hm.2⟩

/-- Every held key is the selected one for some choice: the free value leaves none out (R7). -/
theorem exists_keySel_eq {keys : BitVec 16} {k : Nat} (hk : k < 16) (h : keys.getLsbD k = true) :
    ∃ c, keySel keys c = BitVec.ofNat 8 k := by
  obtain ⟨c, hc, he⟩ := List.getElem_of_mem (mem_heldKeys.2 ⟨hk, h⟩)
  refine ⟨c, ?_⟩
  rw [keySel, Nat.mod_eq_of_lt hc]
  simp [List.getD_eq_getElem?_getD, List.getElem?_eq_getElem hc, he]

end Sys2Proof.Machine
end

