-- ==== Sys2Proof/Laws/Cycle.lean ====
section
/-! SUPPORT. What the fetch, the step cycle and the host's operations can do. -/

namespace Sys2Proof.Machine

/-- What the fetch can do (spec/20_memory.md R43): the two bytes at `PC` with `PC` advanced by 2, or nothing. -/
theorem State.fetch_cases (s : State) :
    (s.pc.toNat ≤ 0x0FFE ∧
        s.fetch = some (s.mem.read s.pc.toNat, s.mem.read (s.pc.toNat + 1), s.setPc (s.pc + 2#16))) ∨
      (0x0FFE < s.pc.toNat ∧ s.fetch = none) := by
  unfold State.fetch
  rcases s.mem.load_cases s.pc.toNat 2 with ⟨h, he⟩ | ⟨-, h, he⟩
  · exact .inl ⟨by omega, by rw [he]; rfl⟩
  · exact .inr ⟨by omega, by rw [he]⟩

/-- What a step can do (spec/30_encoding.md R64): nothing on a dead core; the fetch's error with `PC` unchanged; the decoder's
error with `PC` advanced; or the instruction's own effect from the advanced `PC`. -/
theorem step_cases (s : State) :
    ((∃ k, s.fault = some k) ∧ step s = .next s) ∨
    (s.fault = none ∧ 0x0FFE < s.pc.toNat ∧ step s = .next (s.raise .outOfBoundsMemoryAccess)) ∨
    (s.fault = none ∧ s.pc.toNat ≤ 0x0FFE ∧
      ∃ e, decodeBytes (s.mem.read s.pc.toNat) (s.mem.read (s.pc.toNat + 1)) = .error e ∧
        step s = .next ((s.setPc (s.pc + 2#16)).raise .unknownOpcode)) ∨
    (s.fault = none ∧ s.pc.toNat ≤ 0x0FFE ∧
      ∃ i, decodeBytes (s.mem.read s.pc.toNat) (s.mem.read (s.pc.toNat + 1)) = .ok i ∧
        step s = exec i (s.setPc (s.pc + 2#16))) := by
  unfold step stepCycle
  cases hf : s.fault with
  | some k => exact .inl ⟨⟨k, rfl⟩, rfl⟩
  | none =>
    refine .inr ?_
    unfold stepLive
    rcases s.fetch_cases with ⟨h, he⟩ | ⟨h, he⟩
    · cases hd : decodeBytes (s.mem.read s.pc.toNat) (s.mem.read (s.pc.toNat + 1)) with
      | error e => exact .inr (.inl ⟨rfl, h, e, rfl, by simp only [he, hd]⟩)
      | ok i => exact .inr (.inr ⟨rfl, h, i, rfl, by simp only [he, hd]⟩)
    · exact .inl ⟨rfl, h, by simp only [he]⟩

/-- The word the fetch assembles: the byte at the lower address counts 256 times (spec/20_memory.md R37). -/
theorem toNat_wordOfBytes (hi lo : Byte) : (wordOfBytes hi lo).toNat = hi.toNat * 256 + lo.toNat := by
  have e := Nat.shiftLeft_add_eq_or_of_lt (i := 8) lo.isLt hi.toNat
  simp only [wordOfBytes, BitVec.toNat_append]
  rw [← e, Nat.shiftLeft_eq]

/-- A word laid out in two bytes is assembled again (R37). -/
theorem wordOfBytes_highByte_lowByte (w : Word) : wordOfBytes (highByte w) (lowByte w) = w := by
  refine BitVec.eq_of_getLsbD_eq fun k hk => ?_
  simp only [wordOfBytes, highByte, lowByte, BitVec.getLsbD_append, BitVec.getLsbD_extractLsb']
  by_cases h : k < 8
  · simp [h]
  · have h8 : k - 8 < 8 := by omega
    have e : 8 + (k - 8) = k := by omega
    simp [h, h8, e]

/-- The step after `placeWord` fetches and runs exactly that word. -/
theorem step_placeWord (s : State) (w : Word) :
    step (s.placeWord w) =
      match decode w with
      | .error _ => .next (((s.placeWord w).setPc ((s.placeWord w).pc + 2#16)).raise .unknownOpcode)
      | .ok i => exec i ((s.placeWord w).setPc ((s.placeWord w).pc + 2#16)) := by
  have hf : (s.placeWord w).fault = none := rfl
  have hpc : (s.placeWord w).pc.toNat ≤ 0x0FFE := by
    show (if s.pc.toNat ≤ 0x0FFE then s.pc else 0x0200#16).toNat ≤ 0x0FFE
    split
    · assumption
    · decide
  have hmem : (s.placeWord w).mem = s.mem.writeBytes (s.placeWord w).pc.toNat [highByte w, lowByte w] := rfl
  have h0 : (s.placeWord w).mem.read (s.placeWord w).pc.toNat = highByte w := by
    rw [hmem, Memory.read_writeBytes]; simp
  have h1 : (s.placeWord w).mem.read ((s.placeWord w).pc.toNat + 1) = lowByte w := by
    rw [hmem, Memory.read_writeBytes]; simp
  have hd : decodeBytes (highByte w) (lowByte w) = decode w := by
    rw [decodeBytes, wordOfBytes_highByte_lowByte]
  rcases step_cases (s.placeWord w) with ⟨⟨k, hk⟩, -⟩ | ⟨-, h, -⟩ | ⟨-, -, e, he, hs⟩ | ⟨-, -, i, hi, hs⟩
  · rw [hf] at hk; exact absurd hk (by simp)
  · omega
  · rw [h0, h1, hd] at he; rw [hs, he]
  · rw [h0, h1, hd] at hi; rw [hs, hi]

/-! ### Host operations -/

/-- What `Load` can do (spec/60_exceptions.md R136). -/
theorem hostLoad_cases (bytes : List Byte) (s : State) :
    ((∃ k, s.fault = some k) ∧ hostLoad bytes s = s) ∨
    (s.fault = none ∧ 3584 < bytes.length ∧ hostLoad bytes s = s.raise .programTooLarge) ∨
    (s.fault = none ∧ bytes.length ≤ 3584 ∧ hostLoad bytes s = s.setMem (s.mem.writeBytes 0x200 bytes)) := by
  unfold hostLoad
  rcases s.ifLive_cases (fun t =>
      if bytes.length > progMax then t.raise .programTooLarge else t.setMem (t.mem.writeBytes progBase bytes)) with
    ⟨hf, he⟩ | ⟨hf, he⟩
  · refine .inr ?_
    rw [he]
    by_cases h : bytes.length > progMax
    · exact .inl ⟨hf, h, if_pos h⟩
    · exact .inr ⟨hf, by simpa [progMax] using h, if_neg h⟩
  · exact .inl ⟨hf, he⟩

/-- One count-down: by one, never below 0 (R138). -/
theorem toNat_countDown (b : Byte) : (countDown b).toNat = b.toNat - 1 := by
  have := b.isLt
  unfold countDown
  split
  · rw [BitVec.toNat_sub]
    simp only [BitVec.toNat_ofNat]
    omega
  · omega

/-- One key's bit follows the call, every other key's bit is as before (R139). -/
theorem getLsbD_keysWith (keys : BitVec 16) (k j : Key) (pressed : Bool) :
    (keysWith keys k pressed).getLsbD j.val = if j = k then pressed else keys.getLsbD j.val := by
  have hj := j.isLt
  have hbit : (1#16 <<< k.val).getLsbD j.val = decide (j = k) := by
    simp only [BitVec.getLsbD_shiftLeft, hj, decide_true, Bool.true_and, BitVec.getLsbD_one, Fin.ext_iff]
    by_cases h : j.val = k.val
    · simp [h]
    · by_cases h' : j.val < k.val
      · simp [h, h']
      · have : j.val - k.val ≠ 0 := by omega
        simp [h, this]
  unfold keysWith
  cases pressed
  · simp only [Bool.false_eq_true, if_false, BitVec.getLsbD_and, BitVec.getLsbD_not, hbit, hj, decide_true, Bool.true_and]
    by_cases h : j = k <;> simp [h]
  · simp only [if_true, BitVec.getLsbD_or, hbit]
    by_cases h : j = k <;> simp [h]

end Sys2Proof.Machine
end

