-- ==== Sys2Proof/Laws/Decode.lean ====
section
/-! SUPPORT. The fields of the six formats, read back from a word made of them, and a word as plain arithmetic
(spec/30_encoding.md R52, R53). -/

namespace Sys2Proof

/-! ### Fields as plain arithmetic -/

theorem fieldF_eq (w : Word) : fieldF w = w.toNat / 4096 := by
  have := w.isLt
  simp only [fieldF, BitVec.extractLsb'_toNat, Nat.shiftRight_eq_div_pow]
  omega

theorem fieldF_lt (w : Word) : fieldF w < 16 := (w.extractLsb' 12 4).isLt

theorem toNat_fieldN (w : Word) : (fieldN w).toNat = w.toNat % 16 := by
  simp only [fieldN, BitVec.extractLsb'_toNat, Nat.shiftRight_zero]

theorem toNat_fieldNN (w : Word) : (fieldNN w).toNat = w.toNat % 256 := by
  simp only [fieldNN, BitVec.extractLsb'_toNat, Nat.shiftRight_zero]

@[simp] theorem toNat_regField (x : Reg) : (regField x).toNat = x.val := by
  simp [regField]

theorem regField_fieldX (w : Word) : regField (fieldX w) = w.extractLsb' 8 4 :=
  BitVec.eq_of_toNat_eq (by rw [toNat_regField]; rfl)

theorem regField_fieldY (w : Word) : regField (fieldY w) = w.extractLsb' 4 4 :=
  BitVec.eq_of_toNat_eq (by rw [toNat_regField]; rfl)

/-! ### The fields of a word made in a format -/

theorem extract_family {f : BitVec 4} (rest : BitVec 12) : BitVec.extractLsb' 12 4 (f ++ rest) = f := by
  refine BitVec.eq_of_getLsbD_eq fun k hk => ?_
  simp only [BitVec.getLsbD_extractLsb', BitVec.getLsbD_append]
  simp [hk]

@[simp] theorem fieldF_formatA (f : BitVec 4) (nnn : Addr) : fieldF (formatA f nnn) = f.toNat :=
  congrArg BitVec.toNat (extract_family nnn)

@[simp] theorem fieldF_formatXI (f : BitVec 4) (x : Reg) (nn : Byte) : fieldF (formatXI f x nn) = f.toNat :=
  congrArg BitVec.toNat (extract_family (regField x ++ nn))

@[simp] theorem fieldF_formatXYN (f : BitVec 4) (x y : Reg) (n : Nibble) : fieldF (formatXYN f x y n) = f.toNat :=
  congrArg BitVec.toNat (extract_family (regField x ++ (regField y ++ n)))

@[simp] theorem fieldNNN_formatA (f : BitVec 4) (nnn : Addr) : fieldNNN (formatA f nnn) = nnn := by
  refine BitVec.eq_of_getLsbD_eq fun k hk => ?_
  simp only [fieldNNN, formatA, BitVec.getLsbD_extractLsb', BitVec.getLsbD_append]
  simp [hk]

@[simp] theorem fieldX_formatXI (f : BitVec 4) (x : Reg) (nn : Byte) : fieldX (formatXI f x nn) = x := by
  have h : (formatXI f x nn).extractLsb' 8 4 = regField x := by
    refine BitVec.eq_of_getLsbD_eq fun k hk => ?_
    simp only [formatXI, BitVec.getLsbD_extractLsb', BitVec.getLsbD_append]
    interval_cases k <;> simp
  simp only [fieldX, h, toNat_regField]

@[simp] theorem fieldNN_formatXI (f : BitVec 4) (x : Reg) (nn : Byte) : fieldNN (formatXI f x nn) = nn := by
  refine BitVec.eq_of_getLsbD_eq fun k hk => ?_
  simp only [fieldNN, formatXI, BitVec.getLsbD_extractLsb', BitVec.getLsbD_append]
  interval_cases k <;> simp

@[simp] theorem fieldX_formatXYN (f : BitVec 4) (x y : Reg) (n : Nibble) : fieldX (formatXYN f x y n) = x := by
  have h : (formatXYN f x y n).extractLsb' 8 4 = regField x := by
    refine BitVec.eq_of_getLsbD_eq fun k hk => ?_
    simp only [formatXYN, BitVec.getLsbD_extractLsb', BitVec.getLsbD_append]
    interval_cases k <;> simp
  simp only [fieldX, h, toNat_regField]

@[simp] theorem fieldY_formatXYN (f : BitVec 4) (x y : Reg) (n : Nibble) : fieldY (formatXYN f x y n) = y := by
  have h : (formatXYN f x y n).extractLsb' 4 4 = regField y := by
    refine BitVec.eq_of_getLsbD_eq fun k hk => ?_
    simp only [formatXYN, BitVec.getLsbD_extractLsb', BitVec.getLsbD_append]
    interval_cases k <;> simp
  simp only [fieldY, h, toNat_regField]

@[simp] theorem fieldN_formatXYN (f : BitVec 4) (x y : Reg) (n : Nibble) : fieldN (formatXYN f x y n) = n := by
  refine BitVec.eq_of_getLsbD_eq fun k hk => ?_
  simp only [fieldN, formatXYN, BitVec.getLsbD_extractLsb', BitVec.getLsbD_append]
  interval_cases k <;> simp

/-! ### A word rebuilt from its fields -/

theorem formatA_fields (w : Word) : formatA (w.extractLsb' 12 4) (fieldNNN w) = w := by
  refine BitVec.eq_of_getLsbD_eq fun k hk => ?_
  simp only [formatA, fieldNNN, BitVec.getLsbD_append, BitVec.getLsbD_extractLsb']
  interval_cases k <;> simp

theorem formatXI_fields (w : Word) : formatXI (w.extractLsb' 12 4) (fieldX w) (fieldNN w) = w := by
  refine BitVec.eq_of_getLsbD_eq fun k hk => ?_
  simp only [formatXI, regField_fieldX, fieldNN, BitVec.getLsbD_append, BitVec.getLsbD_extractLsb']
  interval_cases k <;> simp

theorem formatXYN_fields (w : Word) : formatXYN (w.extractLsb' 12 4) (fieldX w) (fieldY w) (fieldN w) = w := by
  refine BitVec.eq_of_getLsbD_eq fun k hk => ?_
  simp only [formatXYN, regField_fieldX, regField_fieldY, fieldN, BitVec.getLsbD_append, BitVec.getLsbD_extractLsb']
  interval_cases k <;> simp

end Sys2Proof
end

