-- ==== Sys2Proof/Laws/Display.lean ====
section
/-! SUPPORT. What the sprite-compositing unit does to the display, VF and the redraw flag (spec/45_display.md R102 to R108). -/

namespace Sys2Proof.Machine

@[simp] theorem Display.getPixel_blank (x : Fin 64) (y : Fin 32) : (Display.blank[y])[x] = false := by
  simp [Display.blank]

/-! ### One dot -/

theorem State.plot_getPixel (s : State) (d : SpriteDot) (x : Fin 64) (y : Fin 32) :
    (s.plot d).getPixel x y = if x = d.px ∧ y = d.py then s.getPixel x y ^^ d.bit else s.getPixel x y := by
  have h : (s.plot d).fb = (s.setPixel d.px d.py (s.getPixel d.px d.py ^^ d.bit)).fb := by
    unfold State.plot
    cases d.bit <;> cases s.getPixel d.px d.py <;> rfl
  rw [State.getPixel_congr h, State.getPixel_setPixel]
  by_cases hxy : x = d.px ∧ y = d.py
  · simp only [hxy, and_self, if_true]
  · simp only [hxy, if_false]

theorem State.plot_redraw (s : State) (d : SpriteDot) : (s.plot d).redraw = (s.redraw || d.bit) := by
  unfold State.plot
  cases d.bit <;> cases s.getPixel d.px d.py <;> simp

theorem State.plot_getV (s : State) (d : SpriteDot) (r : Reg) :
    (s.plot d).getV r = if r = vf ∧ d.bit = true ∧ s.getPixel d.px d.py = true then 1#8 else s.getV r := by
  unfold State.plot
  cases d.bit <;> cases s.getPixel d.px d.py <;> simp [State.getV_setV]

/-- What a dot leaves alone: everything but VF, the display and `REDRAW`. -/
theorem State.plot_frame (s : State) (d : SpriteDot) :
    (s.plot d).i = s.i ∧ (s.plot d).pc = s.pc ∧ (s.plot d).stack = s.stack ∧ (s.plot d).sp = s.sp ∧
      (s.plot d).dt = s.dt ∧ (s.plot d).st = s.st ∧ (s.plot d).keys = s.keys ∧ (s.plot d).mem = s.mem ∧
      (s.plot d).fault = s.fault ∧ (s.plot d).draws = s.draws := by
  unfold State.plot
  cases d.bit <;> cases s.getPixel d.px d.py <;> simp

/-! ### All dots -/

/-- What drawing leaves alone. -/
theorem State.plotAll_frame (ds : List SpriteDot) (s : State) :
    (s.plotAll ds).i = s.i ∧ (s.plotAll ds).pc = s.pc ∧ (s.plotAll ds).stack = s.stack ∧ (s.plotAll ds).sp = s.sp ∧
      (s.plotAll ds).dt = s.dt ∧ (s.plotAll ds).st = s.st ∧ (s.plotAll ds).keys = s.keys ∧
      (s.plotAll ds).mem = s.mem ∧ (s.plotAll ds).fault = s.fault ∧ (s.plotAll ds).draws = s.draws := by
  induction ds generalizing s with
  | nil => exact ⟨rfl, rfl, rfl, rfl, rfl, rfl, rfl, rfl, rfl, rfl⟩
  | cons d ds ih =>
    obtain ⟨h1, h2, h3, h4, h5, h6, h7, h8, h9, h10⟩ := ih (s.plot d)
    obtain ⟨g1, g2, g3, g4, g5, g6, g7, g8, g9, g10⟩ := s.plot_frame d
    exact ⟨h1.trans g1, h2.trans g2, h3.trans g3, h4.trans g4, h5.trans g5, h6.trans g6, h7.trans g7, h8.trans g8,
      h9.trans g9, h10.trans g10⟩

/-- Drawing writes no register but VF. -/
theorem State.plotAll_getV_other (ds : List SpriteDot) (s : State) {r : Reg} (h : r ≠ vf) :
    (s.plotAll ds).getV r = s.getV r := by
  induction ds generalizing s with
  | nil => rfl
  | cons d ds ih => rw [State.plotAll, ih, State.plot_getV, if_neg (fun hh => h hh.1)]

/-- `REDRAW` ends set exactly where it was set or some dot is 1 (R106). -/
theorem State.plotAll_redraw (ds : List SpriteDot) (s : State) :
    (s.plotAll ds).redraw = (s.redraw || ds.any fun d => d.bit) := by
  induction ds generalizing s with
  | nil => simp [State.plotAll]
  | cons d ds ih => rw [State.plotAll, ih, State.plot_redraw, List.any_cons, Bool.or_assoc]

/-- The pixels of the dots are distinct: no pixel is touched twice (R107). -/
def distinctPixels (ds : List SpriteDot) : Prop := ds.Pairwise fun d e => ¬(d.px = e.px ∧ d.py = e.py)

/-- A pixel no dot lands on keeps its value. -/
theorem State.plotAll_getPixel_untouched (ds : List SpriteDot) (s : State) (x : Fin 64) (y : Fin 32)
    (h : ∀ d ∈ ds, ¬(x = d.px ∧ y = d.py)) : (s.plotAll ds).getPixel x y = s.getPixel x y := by
  induction ds generalizing s with
  | nil => rfl
  | cons d ds ih =>
    rw [State.plotAll, ih _ fun e he => h e (List.mem_cons_of_mem _ he), State.plot_getPixel,
      if_neg (h d List.mem_cons_self)]

/-- The pixel a dot lands on ends as its old value xor the dot's bit (R102). -/
theorem State.plotAll_getPixel {ds : List SpriteDot} (hd : distinctPixels ds) (s : State) {d : SpriteDot} (h : d ∈ ds) :
    (s.plotAll ds).getPixel d.px d.py = (s.getPixel d.px d.py ^^ d.bit) := by
  induction ds generalizing s with
  | nil => exact absurd h List.not_mem_nil
  | cons e ds ih =>
    obtain ⟨he, hds⟩ := List.pairwise_cons.1 hd
    rw [State.plotAll]
    rcases List.mem_cons.1 h with rfl | h
    · rw [State.plotAll_getPixel_untouched _ _ _ _ he, State.plot_getPixel, if_pos ⟨rfl, rfl⟩]
    · rw [ih hds _ h, State.plot_getPixel, if_neg]
      rintro ⟨hx, hy⟩
      exact he d h ⟨hx.symm, hy.symm⟩

/-- VF ends 1 where some dot is 1 over a pixel that was set, else as it was (R105). -/
theorem State.plotAll_getV_vf {ds : List SpriteDot} (hd : distinctPixels ds) (s : State) :
    (s.plotAll ds).getV vf = if ∃ d ∈ ds, d.bit = true ∧ s.getPixel d.px d.py = true then 1#8 else s.getV vf := by
  induction ds generalizing s with
  | nil => simp [State.plotAll]
  | cons d ds ih =>
    obtain ⟨he, hds⟩ := List.pairwise_cons.1 hd
    rw [State.plotAll, ih hds, State.plot_getV]
    have hsame : ∀ e ∈ ds, (s.plot d).getPixel e.px e.py = s.getPixel e.px e.py := fun e hm => by
      rw [State.plot_getPixel, if_neg]
      rintro ⟨hx, hy⟩
      exact he e hm ⟨hx.symm, hy.symm⟩
    by_cases h1 : ∃ e ∈ ds, e.bit = true ∧ s.getPixel e.px e.py = true
    · obtain ⟨e, hm, hb, ho⟩ := h1
      rw [if_pos ⟨e, hm, hb, (hsame e hm).trans ho⟩, if_pos ⟨e, List.mem_cons_of_mem _ hm, hb, ho⟩]
    · have h1' : ¬∃ e ∈ ds, e.bit = true ∧ (s.plot d).getPixel e.px e.py = true := by
        rintro ⟨e, hm, hb, ho⟩
        exact h1 ⟨e, hm, hb, (hsame e hm).symm.trans ho⟩
      rw [if_neg h1']
      by_cases h2 : d.bit = true ∧ s.getPixel d.px d.py = true
      · rw [if_pos ⟨rfl, h2⟩, if_pos ⟨d, List.mem_cons_self, h2⟩]
      · rw [if_neg (fun hh => h2 hh.2), if_neg]
        rintro ⟨e, hm, hh⟩
        rcases List.mem_cons.1 hm with rfl | hm
        · exact h2 hh
        · exact h1 ⟨e, hm, hh⟩

/-! ### The dots of a sprite -/

theorem mem_spriteRow {x0 y0 : Byte} {row : Nat} {b : Byte} {d : SpriteDot} :
    d ∈ spriteRow x0 y0 row b ↔ ∃ bit < 8, d = ⟨pixelColumn x0 bit, pixelRow y0 row, spriteBit b bit⟩ := by
  simp [spriteRow, eq_comm]

/-- A sprite's dots: bit `bit` of byte `k` at its own column and row (R102, R104). -/
theorem mem_spriteDots {x0 y0 : Byte} {row : Nat} {bs : List Byte} {d : SpriteDot} :
    d ∈ spriteDots x0 y0 row bs ↔
      ∃ (k : Nat) (hk : k < bs.length) (bit : Nat), bit < 8 ∧
        d = ⟨pixelColumn x0 bit, pixelRow y0 (row + k), spriteBit bs[k] bit⟩ := by
  induction bs generalizing row with
  | nil => simp [spriteDots]
  | cons b bs ih =>
    rw [spriteDots, List.mem_append, mem_spriteRow, ih]
    constructor
    · rintro (⟨bit, hb, rfl⟩ | ⟨k, hk, bit, hb, rfl⟩)
      · exact ⟨0, by simp, bit, hb, rfl⟩
      · exact ⟨k + 1, by simpa using hk, bit, hb, by simp [Nat.add_assoc, Nat.add_comm 1 k]⟩
    · rintro ⟨k, hk, bit, hb, rfl⟩
      cases k with
      | zero => exact .inl ⟨bit, hb, rfl⟩
      | succ k => exact .inr ⟨k, by simpa using hk, bit, hb, by simp [Nat.add_assoc, Nat.add_comm 1 k]⟩

theorem pixelColumn_inj {x0 : Byte} {a b : Nat} (ha : a < 8) (hb : b < 8) (h : pixelColumn x0 a = pixelColumn x0 b) :
    a = b := by
  have := congrArg Fin.val h
  simp only [pixelColumn, Fin.val_ofNat] at this
  omega

theorem pixelRow_inj {y0 : Byte} {a b : Nat} (ha : a < 32) (hb : b < 32) (h : pixelRow y0 a = pixelRow y0 b) : a = b := by
  have := congrArg Fin.val h
  simp only [pixelRow, Fin.val_ofNat] at this
  omega

/-- No pixel is touched twice: the columns of a row are distinct, and so are at most 32 rows (R107). -/
theorem distinctPixels_spriteDots (x0 y0 : Byte) (row : Nat) (bs : List Byte) (h : row + bs.length ≤ 32) :
    distinctPixels (spriteDots x0 y0 row bs) := by
  induction bs generalizing row with
  | nil => exact List.Pairwise.nil
  | cons b bs ih =>
    rw [List.length_cons] at h
    refine List.pairwise_append.2 ⟨?_, ih (row + 1) (by omega), ?_⟩
    · rw [spriteRow, List.pairwise_map]
      refine (List.nodup_range (n := 8)).imp_of_mem ?_
      rintro a c ha hc hne ⟨hx, -⟩
      exact hne (pixelColumn_inj (List.mem_range.1 ha) (List.mem_range.1 hc) hx)
    · intro d hd e he hxy
      obtain ⟨bit, -, rfl⟩ := mem_spriteRow.1 hd
      obtain ⟨k, hk, bit', -, rfl⟩ := mem_spriteDots.1 he
      have := pixelRow_inj (by omega) (by omega) hxy.2
      omega

end Sys2Proof.Machine
end

