-- ==== Sys2Proof/Laws/PerInstr.lean ====
section
/-! SUPPORT. Per instruction: its word has the fixed bits its row of spec/opcode_table.json gives (spec/30_encoding.md R55),
whatever its operands are. -/

namespace Sys2Proof.Laws

/-- The word of the instruction agrees with the `match` and `mask` of its table row. -/
def TableRow.Statement (i : Instr) : Prop := encode i &&& i.tableRow.mask = i.tableRow.pattern

/-- Format A under the mask 0xF000: the family's nibble. -/
theorem formatA_masked (f : BitVec 4) (nnn : Addr) : formatA f nnn &&& 0xF000#16 = f ++ 0#12 := by
  refine BitVec.eq_of_getLsbD_eq fun k hk => ?_
  simp only [formatA, BitVec.getLsbD_and, BitVec.getLsbD_append]
  interval_cases k <;> simp

/-- Format XI under the mask 0xF000: the family's nibble. -/
theorem formatXI_masked (f : BitVec 4) (x : Reg) (nn : Byte) : formatXI f x nn &&& 0xF000#16 = f ++ 0#12 := by
  refine BitVec.eq_of_getLsbD_eq fun k hk => ?_
  simp only [formatXI, BitVec.getLsbD_and, BitVec.getLsbD_append]
  interval_cases k <;> simp

/-- Format XS is XI with a fixed NN: under the mask 0xF0FF, the family's nibble and NN. -/
theorem formatXS_masked (f : BitVec 4) (x : Reg) (nn : Byte) : formatXI f x nn &&& 0xF0FF#16 = f ++ (0#4 ++ nn) := by
  refine BitVec.eq_of_getLsbD_eq fun k hk => ?_
  simp only [formatXI, BitVec.getLsbD_and, BitVec.getLsbD_append]
  interval_cases k <;> simp

/-- Format XY under the mask 0xF00F: the family's nibble and N. -/
theorem formatXY_masked (f : BitVec 4) (x y : Reg) (n : Nibble) : formatXYN f x y n &&& 0xF00F#16 = f ++ (0#8 ++ n) := by
  refine BitVec.eq_of_getLsbD_eq fun k hk => ?_
  simp only [formatXYN, BitVec.getLsbD_and, BitVec.getLsbD_append]
  interval_cases k <;> simp

/-- Format XYN under the mask 0xF000: the family's nibble. -/
theorem formatXYN_masked (f : BitVec 4) (x y : Reg) (n : Nibble) : formatXYN f x y n &&& 0xF000#16 = f ++ 0#12 := by
  refine BitVec.eq_of_getLsbD_eq fun k hk => ?_
  simp only [formatXYN, BitVec.getLsbD_and, BitVec.getLsbD_append]
  interval_cases k <;> simp

theorem TableRow.cls : TableRow.Statement .cls := rfl
theorem TableRow.ret : TableRow.Statement .ret := rfl
theorem TableRow.sys (nnn : Addr) : TableRow.Statement (.sys nnn) := formatA_masked _ nnn
theorem TableRow.jp (nnn : Addr) : TableRow.Statement (.jp nnn) := formatA_masked _ nnn
theorem TableRow.call (nnn : Addr) : TableRow.Statement (.call nnn) := formatA_masked _ nnn
theorem TableRow.sei (x : Reg) (nn : Byte) : TableRow.Statement (.sei x nn) := formatXI_masked _ x nn
theorem TableRow.snei (x : Reg) (nn : Byte) : TableRow.Statement (.snei x nn) := formatXI_masked _ x nn
theorem TableRow.ser (x y : Reg) : TableRow.Statement (.ser x y) := formatXY_masked _ x y _
theorem TableRow.ldi (x : Reg) (nn : Byte) : TableRow.Statement (.ldi x nn) := formatXI_masked _ x nn
theorem TableRow.addi (x : Reg) (nn : Byte) : TableRow.Statement (.addi x nn) := formatXI_masked _ x nn
theorem TableRow.mov (x y : Reg) : TableRow.Statement (.mov x y) := formatXY_masked _ x y _
theorem TableRow.or (x y : Reg) : TableRow.Statement (.or x y) := formatXY_masked _ x y _
theorem TableRow.and (x y : Reg) : TableRow.Statement (.and x y) := formatXY_masked _ x y _
theorem TableRow.xor (x y : Reg) : TableRow.Statement (.xor x y) := formatXY_masked _ x y _
theorem TableRow.add (x y : Reg) : TableRow.Statement (.add x y) := formatXY_masked _ x y _
theorem TableRow.sub (x y : Reg) : TableRow.Statement (.sub x y) := formatXY_masked _ x y _
theorem TableRow.shr (x y : Reg) : TableRow.Statement (.shr x y) := formatXY_masked _ x y _
theorem TableRow.subn (x y : Reg) : TableRow.Statement (.subn x y) := formatXY_masked _ x y _
theorem TableRow.shl (x y : Reg) : TableRow.Statement (.shl x y) := formatXY_masked _ x y _
theorem TableRow.sner (x y : Reg) : TableRow.Statement (.sner x y) := formatXY_masked _ x y _
theorem TableRow.lda (nnn : Addr) : TableRow.Statement (.lda nnn) := formatA_masked _ nnn
theorem TableRow.jpv0 (nnn : Addr) : TableRow.Statement (.jpv0 nnn) := formatA_masked _ nnn
theorem TableRow.rnd (x : Reg) (nn : Byte) : TableRow.Statement (.rnd x nn) := formatXI_masked _ x nn
theorem TableRow.drw (x y : Reg) (n : Nibble) : TableRow.Statement (.drw x y n) := formatXYN_masked _ x y n
theorem TableRow.skp (x : Reg) : TableRow.Statement (.skp x) := formatXS_masked _ x _
theorem TableRow.sknp (x : Reg) : TableRow.Statement (.sknp x) := formatXS_masked _ x _
theorem TableRow.lddt (x : Reg) : TableRow.Statement (.lddt x) := formatXS_masked _ x _
theorem TableRow.wkey (x : Reg) : TableRow.Statement (.wkey x) := formatXS_masked _ x _
theorem TableRow.stdt (x : Reg) : TableRow.Statement (.stdt x) := formatXS_masked _ x _
theorem TableRow.stst (x : Reg) : TableRow.Statement (.stst x) := formatXS_masked _ x _
theorem TableRow.adda (x : Reg) : TableRow.Statement (.adda x) := formatXS_masked _ x _
theorem TableRow.glyph (x : Reg) : TableRow.Statement (.glyph x) := formatXS_masked _ x _
theorem TableRow.bcd (x : Reg) : TableRow.Statement (.bcd x) := formatXS_masked _ x _
theorem TableRow.stm (x : Reg) : TableRow.Statement (.stm x) := formatXS_masked _ x _
theorem TableRow.ldm (x : Reg) : TableRow.Statement (.ldm x) := formatXS_masked _ x _

end Sys2Proof.Laws
end

