-- ==== Sys2Proof/Tests/Slice0.lean ====
section
/-! SUPPORT. The model's own tests: words and expected values from spec/95_test_vectors.md (each test names its vector), the
smoke test of `Instr.wf`, and a witness for every obligation that has hypotheses. -/

namespace Sys2Proof.Tests

open Sys2Proof.Machine

/-! ### Helpers -/

/-- The reset state with some registers set. -/
def regs (l : List (Reg × Byte)) : State := l.foldl (fun s p => s.setV p.1 p.2) State.reset

/-- The state with some bytes of memory set. -/
def withBytes (s : State) (a : Nat) (bytes : List Byte) : State := s.setMem (s.mem.writeBytes a bytes)

/-- The state with some pixels set. -/
def withPixels (s : State) (l : List (Fin 64 × Fin 32)) : State := l.foldl (fun u p => u.setPixel p.1 p.2 true) s

/-- The next state, if that is the outcome. -/
def next? : Result → Option State
  | .next t => some t
  | .fault _ => none
  | .refused _ => none

/-- What one step of the word placed at `PC` leaves, seen through `f`. -/
def see {α : Type} (w : Word) (s : State) (f : State → α) : Option α := (next? (step (s.placeWord w))).map f

/-- What one host operation leaves, seen through `f`. -/
def seeOp {α : Type} (o : HostOp) (s : State) (f : State → α) : Option α := (next? (perform o s)).map f

/-- The set pixels of some listed places. -/
def lit (l : List (Fin 64 × Fin 32)) (s : State) : List Bool := l.map fun p => s.getPixel p.1 p.2

/-! ### Well-formedness -/

/-- The words 0x00E0 and 0x00EE are CLS and RET, so no word is SYS 0x0E0 or SYS 0x0EE (R57). -/
theorem test_wf_sys_0E0_refused : Instr.wf (.sys 0x0E0#12) = false := by decide
theorem test_wf_sys_0EE_refused : Instr.wf (.sys 0x0EE#12) = false := by decide
/-- E4 and E5: one bit away from CLS is SYS. -/
theorem test_wf_sys_accepted : Instr.wf (.sys 0x0E1#12) = true ∧ Instr.wf (.sys 0x1E0#12) = true := by decide

/-! ### Decoding: E1 to E29 -/

theorem test_decode_family0 :
    decode 0x00E0#16 = .ok .cls ∧ decode 0x00EE#16 = .ok .ret ∧ decode 0x0000#16 = .ok (.sys 0x000#12) ∧
    decode 0x00E1#16 = .ok (.sys 0x0E1#12) ∧ decode 0x01E0#16 = .ok (.sys 0x1E0#12) ∧
    decode 0x0FEE#16 = .ok (.sys 0xFEE#12) := by decide
theorem test_decode_jumps :
    decode 0x1234#16 = .ok (.jp 0x234#12) ∧ decode 0x2FFF#16 = .ok (.call 0xFFF#12) ∧
    decode 0xB123#16 = .ok (.jpv0 0x123#12) := by decide
theorem test_decode_skips :
    decode 0x3A7F#16 = .ok (.sei 10 0x7F#8) ∧ decode 0x4B80#16 = .ok (.snei 11 0x80#8) ∧
    decode 0x5AB0#16 = .ok (.ser 10 11) ∧ decode 0x9AB0#16 = .ok (.sner 10 11) := by decide
theorem test_decode_immediate :
    decode 0x6C01#16 = .ok (.ldi 12 0x01#8) ∧ decode 0x7DFF#16 = .ok (.addi 13 0xFF#8) ∧
    decode 0xC3F0#16 = .ok (.rnd 3 0xF0#8) := by decide
theorem test_decode_family8 :
    decode 0x8AB0#16 = .ok (.mov 10 11) ∧ decode 0x8AB1#16 = .ok (.or 10 11) ∧ decode 0x8AB2#16 = .ok (.and 10 11) ∧
    decode 0x8AB3#16 = .ok (.xor 10 11) ∧ decode 0x8AB4#16 = .ok (.add 10 11) ∧ decode 0x8AB5#16 = .ok (.sub 10 11) ∧
    decode 0x8AB6#16 = .ok (.shr 10 11) ∧ decode 0x8AB7#16 = .ok (.subn 10 11) ∧
    decode 0x8ABE#16 = .ok (.shl 10 11) := by decide
theorem test_decode_index_display :
    decode 0xA123#16 = .ok (.lda 0x123#12) ∧ decode 0xD125#16 = .ok (.drw 1 2 5#4) ∧
    decode 0xD120#16 = .ok (.drw 1 2 0#4) := by decide
theorem test_decode_familyE : decode 0xE39E#16 = .ok (.skp 3) ∧ decode 0xE3A1#16 = .ok (.sknp 3) := by decide
theorem test_decode_familyF :
    decode 0xF307#16 = .ok (.lddt 3) ∧ decode 0xF30A#16 = .ok (.wkey 3) ∧ decode 0xF315#16 = .ok (.stdt 3) ∧
    decode 0xF318#16 = .ok (.stst 3) ∧ decode 0xF31E#16 = .ok (.adda 3) ∧ decode 0xF329#16 = .ok (.glyph 3) ∧
    decode 0xF333#16 = .ok (.bcd 3) ∧ decode 0xF355#16 = .ok (.stm 3) ∧ decode 0xF365#16 = .ok (.ldm 3) := by decide
theorem test_decode_illegal_5_9 :
    decode 0x5AB1#16 = .error .family5 ∧ decode 0x9ABF#16 = .error .family9 := by decide
theorem test_decode_illegal_8 :
    decode 0x8AB8#16 = .error .family8 ∧ decode 0x8AB9#16 = .error .family8 ∧
    decode 0x8ABA#16 = .error .family8 ∧ decode 0x8ABB#16 = .error .family8 ∧
    decode 0x8ABC#16 = .error .family8 ∧ decode 0x8ABD#16 = .error .family8 ∧
    decode 0x8ABF#16 = .error .family8 :=
  ⟨rfl, rfl, rfl, rfl, rfl, rfl, rfl⟩
theorem test_decode_illegal_E :
    decode 0xE39F#16 = .error .familyE ∧ decode 0xE3A0#16 = .error .familyE ∧
    decode 0xE300#16 = .error .familyE ∧ decode 0xE3FF#16 = .error .familyE :=
  ⟨rfl, rfl, rfl, rfl⟩
theorem test_decode_illegal_F :
    decode 0xF300#16 = .error .familyF ∧ decode 0xF308#16 = .error .familyF ∧
    decode 0xF30B#16 = .error .familyF ∧ decode 0xF31F#16 = .error .familyF ∧
    decode 0xF330#16 = .error .familyF ∧ decode 0xF375#16 = .error .familyF ∧
    decode 0xF385#16 = .error .familyF ∧ decode 0xF3FF#16 = .error .familyF :=
  ⟨rfl, rfl, rfl, rfl, rfl, rfl, rfl, rfl⟩
/-- The table's numbering of the bits (R51, R52): S1 and E16. -/
theorem test_decodeTableWord :
    decodeTableWord 16 0x1234 = some (.jp 0x234#12) ∧ decodeTableWord 16 0x8ABE = some (.shl 10 11) ∧
    decodeTableWord 16 0x5AB1 = none := by decide
/-- The high byte of a word stands at the lower address (R37). -/
theorem test_withFetchWord_bytes :
    ((State.reset.withFetchWord 16 0x6A5C).mem.read 0x200, (State.reset.withFetchWord 16 0x6A5C).mem.read 0x201) =
      (0x6A#8, 0x5C#8) := by decide

/-! ### Control transfer: T1 to T15 -/

/-- T3. -/
theorem test_sys_is_not_cls : see 0x01E0#16 (withPixels State.reset [(3, 3)]) (fun t => (t.getPixel 3 3, t.redraw, t.pc)) =
    some (true, false, 0x0202#16) := by decide
/-- T5. -/
theorem test_ret_full_stack :
    see 0x00EE#16 { State.reset with sp := 16, stack := State.reset.stack.set 15 0x0FFF#16 } (fun t => (t.pc, t.sp)) =
      some (0x0FFF#16, 15) := by decide
/-- T6. -/
theorem test_ret_underflow : see 0x00EE#16 State.reset (fun t => (t.pc, t.sp, t.fault)) =
    some (0x0202#16, 0, some .stackUnderflow) := by decide
/-- T7. -/
theorem test_jp : see 0x1ABC#16 State.reset (fun t => (t.pc, t.sp)) = some (0x0ABC#16, 0) := by decide
/-- T11. -/
theorem test_call_sixteenth : see 0x2ABC#16 { State.reset with pc := 0x0F00#16, sp := 15 }
    (fun t => (t.pc, t.sp, t.stackAt 15, t.fault)) = some (0x0ABC#16, 16, 0x0F02#16, none) := by decide
/-- T12. -/
theorem test_call_overflow : see 0x2ABC#16 { State.reset with sp := 16 } (fun t => (t.pc, t.sp, t.fault)) =
    some (0x0202#16, 16, some .stackOverflow) := by decide
/-- T14. -/
theorem test_jpv0_largest : see 0xBFFF#16 (regs [(0, 0xFF#8)]) State.pc = some 0x10FE#16 := by decide
/-- T15. -/
theorem test_jpv0_uses_v0 : see 0xB123#16 (regs [(1, 0x77#8)]) State.pc = some 0x0123#16 := by decide

/-! ### Skips: T16 to T26 -/

/-- T16. -/
theorem test_sei_equal : see 0x3142#16 (regs [(1, 0x42#8)]) State.pc = some 0x0204#16 := by decide
/-- T26. -/
theorem test_sei_last_word : see 0x3000#16 { State.reset with pc := 0x0FFE#16 } (fun t => (t.pc, t.fault)) =
    some (0x1002#16, none) := by decide
/-- T18. -/
theorem test_snei_equal : see 0x4142#16 (regs [(1, 0x42#8)]) State.pc = some 0x0202#16 := by decide
/-- T19. -/
theorem test_snei_unequal : see 0x4142#16 (regs [(1, 0x43#8)]) State.pc = some 0x0204#16 := by decide
/-- T21. -/
theorem test_ser_unequal : see 0x5120#16 (regs [(1, 0x07#8), (2, 0x08#8)]) State.pc = some 0x0202#16 := by decide
/-- T22. -/
theorem test_ser_same_register : see 0x5330#16 (regs [(3, 0x09#8)]) State.pc = some 0x0204#16 := by decide
/-- T24. -/
theorem test_sner_unequal : see 0x9120#16 (regs [(1, 0x07#8), (2, 0x08#8)]) State.pc = some 0x0204#16 := by decide
/-- T25. -/
theorem test_sner_same_register : see 0x9330#16 (regs [(3, 0x09#8)]) State.pc = some 0x0202#16 := by decide

/-! ### Immediate: T27 to T35 -/

/-- T28. -/
theorem test_ldi_vf : see 0x6F07#16 State.reset (fun t => (t.getV vf, t.pc)) = some (0x07#8, 0x0202#16) := by decide
/-- T29. -/
theorem test_addi_wraps : see 0x7001#16 (regs [(0, 0xFF#8), (15, 0x55#8)]) (fun t => (t.getV 0, t.getV vf)) =
    some (0x00#8, 0x55#8) := by decide
/-- T31. -/
theorem test_addi_vf : see 0x7F02#16 (regs [(15, 0xFF#8)]) (fun t => t.getV vf) = some 0x01#8 := by decide
/-- T34, for any draw. -/
theorem test_rnd_mask_zero : see 0xC300#16 (regs [(3, 0xFF#8)]) (fun t => t.getV 3) = some 0x00#8 := by
  have h : see 0xC300#16 (regs [(3, 0xFF#8)]) (fun t => t.getV 3) = some (Config.randByte 0 &&& 0x00#8) := rfl
  rw [h, BitVec.and_zero]
/-- T33 and T35 in general: the draw masked, and a fresh draw at the next RND. -/
theorem test_rnd_masks_the_draw : see 0xC30F#16 (regs [(3, 0xFF#8)]) (fun t => (t.getV 3, t.draws)) =
    some (Config.randByte 0 &&& 0x0F#8, 1) := rfl

/-! ### Arithmetic, logic, shift: T36 to T78 -/

/-- T36. -/
theorem test_mov : see 0x8120#16 (regs [(2, 0x5A#8)]) (fun t => (t.getV 1, t.getV 2)) = some (0x5A#8, 0x5A#8) := by decide
/-- T37. -/
theorem test_mov_vf : see 0x8F10#16 (regs [(1, 0x33#8), (15, 0x01#8)]) (fun t => t.getV vf) = some 0x33#8 := by decide
/-- T38. -/
theorem test_or : see 0x8121#16 (regs [(1, 0xF0#8), (2, 0x3C#8), (15, 0x77#8)]) (fun t => (t.getV 1, t.getV vf)) =
    some (0xFC#8, 0x77#8) := by decide
/-- T39. -/
theorem test_and : see 0x8122#16 (regs [(1, 0xF0#8), (2, 0x3C#8), (15, 0x77#8)]) (fun t => (t.getV 1, t.getV vf)) =
    some (0x30#8, 0x77#8) := by decide
/-- T40. -/
theorem test_xor : see 0x8123#16 (regs [(1, 0xF0#8), (2, 0x3C#8), (15, 0x77#8)]) (fun t => (t.getV 1, t.getV vf)) =
    some (0xCC#8, 0x77#8) := by decide
/-- T41. -/
theorem test_xor_same_register : see 0x8113#16 (regs [(1, 0xF0#8)]) (fun t => t.getV 1) = some 0x00#8 := by decide
/-- T43. -/
theorem test_add_255 : see 0x8014#16 (regs [(0, 0xFE#8), (1, 0x01#8), (15, 0x01#8)]) (fun t => (t.getV 0, t.getV vf)) =
    some (0xFF#8, 0x00#8) := by decide
/-- T61. -/
theorem test_add_vf_source : see 0x80F4#16 (regs [(0, 0xF0#8), (15, 0x20#8)]) (fun t => (t.getV 0, t.getV vf)) =
    some (0xF1#8, 0x01#8) := by decide
/-- T46. -/
theorem test_sub_borrow : see 0x8015#16 (regs [(0, 0x05#8), (1, 0x0A#8), (15, 0x01#8)]) (fun t => (t.getV 0, t.getV vf)) =
    some (0xFB#8, 0x00#8) := by decide
/-- T68. -/
theorem test_sub_vf_destination : see 0x8F15#16 (regs [(15, 0x05#8), (1, 0x03#8)]) (fun t => t.getV vf) =
    some 0xFE#8 := by decide
/-- T52. -/
theorem test_shr_logical : see 0x8006#16 (regs [(0, 0x80#8), (15, 0x01#8)]) (fun t => (t.getV 0, t.getV vf)) =
    some (0x40#8, 0x00#8) := by decide
/-- T51. -/
theorem test_shr_ignores_y : see 0x8016#16 (regs [(0, 0x05#8), (1, 0xFF#8)])
    (fun t => (t.getV 0, t.getV 1, t.getV vf)) = some (0x02#8, 0xFF#8, 0x01#8) := by decide
/-- T55. -/
theorem test_subn_equal : see 0x8017#16 (regs [(0, 0x07#8), (1, 0x07#8)]) (fun t => (t.getV 0, t.getV vf)) =
    some (0x00#8, 0x01#8) := by decide
/-- T72. -/
theorem test_subn_vf_source : see 0x80F7#16 (regs [(0, 0x05#8), (15, 0x03#8)]) (fun t => (t.getV 0, t.getV vf)) =
    some (0xFB#8, 0x00#8) := by decide
/-- T57, the test that tells bit 7 from bit 0. -/
theorem test_shl_bit7 : see 0x800E#16 (regs [(0, 0x01#8), (15, 0x01#8)]) (fun t => (t.getV 0, t.getV vf)) =
    some (0x02#8, 0x00#8) := by decide
/-- T77. -/
theorem test_shl_vf : see 0x8F0E#16 (regs [(15, 0x81#8)]) (fun t => t.getV vf) = some 0x02#8 := by decide

/-! ### Address register: T79 to T85 -/

/-- T79. -/
theorem test_lda : see 0xA123#16 { State.reset with i := 0xFFFF#16 } State.i = some 0x0123#16 := by decide
/-- T80. -/
theorem test_adda_not_masked : see 0xF01E#16 ((regs [(0, 0x01#8)]).setI 0x0FFF#16) State.i = some 0x1000#16 := by decide
/-- T81. -/
theorem test_adda_wraps : see 0xF01E#16 ((regs [(0, 0x02#8), (15, 0x33#8)]).setI 0xFFFF#16) (fun t => (t.i, t.getV vf)) =
    some (0x0001#16, 0x33#8) := by decide
/-- T84. -/
theorem test_glyph_whole_byte : see 0xF029#16 (regs [(0, 0xFF#8)]) State.i = some 0x04FB#16 := by decide

/-! ### Display: T86 to T98 -/

/-- T86. -/
theorem test_cls : see 0x00E0#16 (withPixels (regs [(15, 0x01#8)]) [(0, 0), (63, 31)])
    (fun t => (lit [(0, 0), (63, 31)] t, t.redraw, t.getV vf)) = some ([false, false], true, 0x01#8) := by decide
/-- T89. -/
theorem test_drw_collision : see 0xD011#16 (withPixels (withBytes (State.reset.setI 0x0300#16) 0x300 [0x80#8]) [(0, 0)])
    (fun t => (t.getPixel 0 0, t.redraw, t.getV vf)) = some (false, true, 0x01#8) := by decide
/-- T97. -/
theorem test_drw_x_is_vf : see 0xDF01#16 (withBytes ((regs [(15, 0x05#8), (0, 0x02#8)]).setI 0x0300#16) 0x300 [0x80#8])
    (fun t => (lit [(5, 2), (0, 2)] t, t.getV vf)) = some ([true, false], 0x00#8) := by decide

/-! ### Keys: T99 to T107 -/

/-- T99. -/
theorem test_skp_held : see 0xE09E#16 { regs [(0, 0x05#8)] with keys := 0x0020#16 } State.pc = some 0x0204#16 := by decide
/-- T101. -/
theorem test_skp_whole_byte : see 0xE09E#16 { regs [(0, 0x15#8)] with keys := 0x0020#16 } State.pc = some 0x0202#16 := by
  decide
/-- T102. -/
theorem test_sknp_held : see 0xE0A1#16 { regs [(0, 0x05#8)] with keys := 0x0020#16 } State.pc = some 0x0202#16 := by decide
/-- T104. -/
theorem test_sknp_whole_byte : see 0xE0A1#16 { regs [(0, 0x15#8)] with keys := 0x0020#16 } State.pc = some 0x0204#16 := by
  decide
/-- T105. -/
theorem test_wkey_none_held : see 0xF30A#16 (regs [(3, 0x99#8)]) (fun t => (t.getV 3, t.pc)) =
    some (0x99#8, 0x0200#16) := by decide
/-- T107: one of the two held keys, either. -/
theorem test_wkey_two_held : see 0xF30A#16 { regs [(3, 0x99#8)] with keys := 0x0204#16 } (fun t => t.getV 3) = some 0x02#8 ∨
    see 0xF30A#16 { regs [(3, 0x99#8)] with keys := 0x0204#16 } (fun t => t.getV 3) = some 0x09#8 := by
  have h : see 0xF30A#16 { regs [(3, 0x99#8)] with keys := 0x0204#16 } (fun t => t.getV 3) =
      some (keySel 0x0204#16 (Config.keyChoice 0)) := rfl
  have hk : heldKeys 0x0204#16 = [2, 9] := by decide
  rw [h, keySel, hk]
  rcases Nat.mod_two_eq_zero_or_one (Config.keyChoice 0) with hc | hc
  · left; simp only [List.length_cons, List.length_nil, hc]; rfl
  · right; simp only [List.length_cons, List.length_nil, hc]; rfl

/-! ### Timers: T108 to T111 -/

/-- T108. -/
theorem test_lddt : see 0xF207#16 (State.reset.setDt 0x2A#8) (fun t => (t.getV 2, t.dt)) = some (0x2A#8, 0x2A#8) := by decide
/-- T109. -/
theorem test_stdt : see 0xF215#16 (regs [(2, 0xFF#8)]) (fun t => (t.dt, t.st)) = some (0xFF#8, 0x00#8) := by decide
/-- T110. -/
theorem test_stst : see 0xF218#16 (regs [(2, 0x01#8)]) (fun t => (t.st, t.dt, toneOut t)) =
    some (0x01#8, 0x00#8, true) := by decide

/-! ### Memory instructions: T112 to T124 -/

/-- T112. -/
theorem test_bcd : see 0xF033#16 ((regs [(0, 0xEA#8)]).setI 0x0300#16) (fun t => t.mem.readBytes 0x300 4) =
    some [0x02#8, 0x03#8, 0x04#8, 0x00#8] := by decide
/-- T116. -/
theorem test_bcd_out_of_bounds : see 0xF033#16 ((regs [(0, 0x64#8)]).setI 0x0FFE#16)
    (fun t => (t.mem.readBytes 0xFFE 2, t.pc, t.fault)) =
      some ([0x00#8, 0x00#8], 0x0202#16, some .outOfBoundsMemoryAccess) := by decide
/-- T117. -/
theorem test_stm : see 0xF255#16 ((regs [(0, 0x11#8), (1, 0x22#8), (2, 0x33#8), (3, 0x44#8)]).setI 0x0400#16)
    (fun t => (t.mem.readBytes 0x400 4, t.i)) = some ([0x11#8, 0x22#8, 0x33#8, 0x00#8], 0x0400#16) := by decide
/-- T119. -/
theorem test_stm_out_of_bounds : see 0xF155#16 ((regs [(0, 0x11#8), (1, 0x22#8)]).setI 0x0FFF#16)
    (fun t => (t.mem.read 0xFFF, t.fault)) = some (0x00#8, some .outOfBoundsMemoryAccess) := by decide
/-- T121. -/
theorem test_ldm : see 0xF265#16 (withBytes ((regs [(3, 0x77#8)]).setI 0x0400#16) 0x400 [0x0A#8, 0x0B#8, 0x0C#8, 0x0D#8])
    (fun t => (t.getV 0, t.getV 1, t.getV 2, t.getV 3)) = some (0x0A#8, 0x0B#8, 0x0C#8, 0x77#8) := by decide
/-- T122. -/
theorem test_ldm_out_of_bounds : see 0xF165#16 (withBytes ((regs [(0, 0x55#8)]).setI 0x0FFF#16) 0xFFF [0x99#8])
    (fun t => (t.getV 0, t.fault)) = some (0x55#8, some .outOfBoundsMemoryAccess) := by decide

/-! ### Faults: T125 to T139 -/

/-- T125. -/
theorem test_fetch_past_memory : (next? (step { State.reset with pc := 0x0FFF#16 })).map (fun t => (t.pc, t.fault)) =
    some (0x0FFF#16, some .outOfBoundsMemoryAccess) := by decide
/-- T127. -/
theorem test_last_word_runs : see 0x6001#16 { State.reset with pc := 0x0FFE#16 } (fun t => (t.getV 0, t.pc, t.fault)) =
    some (0x01#8, 0x1000#16, none) := by decide
/-- T128. -/
theorem test_illegal_word : see 0x5121#16 State.reset (fun t => (t.pc, t.fault)) =
    some (0x0202#16, some .unknownOpcode) := by decide
/-- T139. -/
theorem test_dead_core_stays :
    (next? (step { State.reset with fault := some .stackOverflow })).map (fun t => (t.pc, t.fault)) =
      some (0x0200#16, some .stackOverflow) := by decide
/-- The codes of the latch (R123). -/
theorem test_fault_codes :
    (faultCode none, faultCode (some .stackOverflow), faultCode (some .stackUnderflow),
      faultCode (some .outOfBoundsMemoryAccess), faultCode (some .programTooLarge), faultCode (some .unknownOpcode)) =
    (0, 1, 2, 3, 4, 5) := by decide

/-! ### Host operations: H1 to H13 -/

/-- H1. -/
theorem test_tick : seeOp .tickTimers ((State.reset.setDt 0x03#8).setSt 0x01#8) (fun t => (t.dt, t.st, toneOut t)) =
    some (0x02#8, 0x00#8, false) := by decide
/-- H2. -/
theorem test_tick_at_zero : seeOp .tickTimers State.reset (fun t => (t.dt, t.st)) = some (0x00#8, 0x00#8) := by decide
/-- H5. -/
theorem test_setKey_pressed : seeOp (.setKey 7 true) State.reset State.keys = some 0x0080#16 := by decide
/-- H7. -/
theorem test_setKey_released : seeOp (.setKey 7 false) { State.reset with keys := 0x0088#16 } State.keys =
    some 0x0008#16 := by decide
/-- H8 on a short image. -/
theorem test_load : seeOp (.load [0xA2#8, 0x0C#8]) State.reset (fun t => (t.mem.readBytes 0x200 3, t.pc, t.fault)) =
    some ([0xA2#8, 0x0C#8, 0x00#8], 0x0200#16, none) := by decide
/-- H11. -/
theorem test_clearRedraw : seeOp .clearRedraw (withPixels (State.reset.setRedraw true) [(3, 3)])
    (fun t => (redrawOut t, t.getPixel 3 3)) = some (false, true) := by decide
/-- H12. -/
theorem test_reset_faulted : seeOp .reset { regs [(0, 0x11#8)] with fault := some .unknownOpcode, pc := 0x0FFF#16 }
    (fun t => (t.getV 0, t.pc, faultOut t)) = some (0x00#8, 0x0200#16, none) := by decide
/-- H13. -/
theorem test_dead_core_ignores_ticks : seeOp .tickTimers { State.reset with fault := some .stackOverflow, dt := 0x05#8 }
    (fun t => (t.dt, soundOut t)) = some (0x05#8, 0x00#8) := by decide

/-! ### Witnesses: states and operands that meet the hypotheses of each obligation, at the boundaries of its clauses -/

/-- A live state whose next word is the one given. -/
def atWord (w : Word) (s : State) : State := s.placeWord w

theorem witness_DecodeEncodeRoundTrip : Instr.wf (.sys 0xFFF#12) = true ∧ Instr.wf (.drw 15 0 15#4) = true := by decide

theorem witness_EncodeDecodeRoundTrip :
    decode 0x8ABE#16 = .ok (.shl 10 11) ∧ decode 0x0000#16 = .ok (.sys 0#12) ∧ decode 0xFF65#16 = .ok (.ldm 15) := by decide

/-- Each row of R61's table, and beside it the nearest legal word. -/
theorem witness_IllegalWordsExactly :
    illegalWord 0x5AB1 ∧ ¬illegalWord 0x5AB0 ∧ illegalWord 0x8AB8 ∧ illegalWord 0x8ABF ∧ ¬illegalWord 0x8ABE ∧
      illegalWord 0x9ABF ∧ ¬illegalWord 0x9AB0 ∧ illegalWord 0xE39F ∧ ¬illegalWord 0xE39E ∧ illegalWord 0xF375 ∧
      ¬illegalWord 0xF365 := by
  simp [illegalWord]

/-- `PC` at its highest fetchable value. -/
theorem witness_StepRunsDecodedInstruction :
    (atWord 0x6A5C#16 { State.reset with pc := 0x0FFE#16 }).live ∧
    (atWord 0x6A5C#16 { State.reset with pc := 0x0FFE#16 }).fetchable ∧
    decode (atWord 0x6A5C#16 { State.reset with pc := 0x0FFE#16 }).nextWord = .ok (.ldi 10 0x5C#8) := by decide

/-- Both clauses, where they meet. -/
theorem witness_FetchReadsBigEndianWord :
    (0x0FFE < ({ State.reset with pc := 0x0FFF#16 } : State).pc.toNat ∧ ({ State.reset with pc := 0x0FFF#16 } : State).live) ∧
    ({ State.reset with pc := 0x0FFE#16 } : State).pc.toNat ≤ 0x0FFE := by decide

/-- A step that raises nothing, and one that raises. -/
theorem witness_StepRaisesExactly :
    (State.reset.live ∧ ∃ t, step State.reset = .next t ∧ t.fault = none) ∧
    ((atWord 0x00EE#16 State.reset).live ∧
      ∃ t, step (atWord 0x00EE#16 State.reset) = .next t ∧ t.fault = some .stackUnderflow) :=
  ⟨⟨rfl, _, rfl, rfl⟩, rfl, _, rfl, rfl⟩

/-- The rows of `raises` at their boundaries: CALL with 16 entries, RET with none, `I` + 1 and `I` + 2 just above 4095. -/
theorem witness_raises :
    raises (atWord 0x2ABC#16 { State.reset with sp := 16 }) .stackOverflow ∧
    raises (atWord 0x00EE#16 State.reset) .stackUnderflow ∧
    raises { State.reset with pc := 0x0FFF#16 } .outOfBoundsMemoryAccess ∧
    raises (atWord 0xD012#16 (State.reset.setI 0x0FFF#16)) .outOfBoundsMemoryAccess ∧
    raises (atWord 0xF033#16 (State.reset.setI 0x0FFE#16)) .outOfBoundsMemoryAccess ∧
    raises (atWord 0xF165#16 (State.reset.setI 0x0FFF#16)) .outOfBoundsMemoryAccess ∧
    raises (atWord 0x5121#16 State.reset) .unknownOpcode :=
  ⟨⟨by decide, rfl, _, rfl⟩, ⟨by decide, rfl, rfl⟩, .inl (by decide),
    .inr ⟨by decide, .inl ⟨0, 1, 2, rfl, by decide, by decide⟩⟩,
    .inr ⟨by decide, .inr (.inl ⟨0, rfl, by decide⟩)⟩,
    .inr ⟨by decide, .inr (.inr ⟨1, .inr rfl, by decide⟩)⟩, ⟨by decide, _, rfl⟩⟩

/-- A fetch fault, an execute fault and a faulting `Load`. -/
theorem witness_FaultsArePrecise :
    (∃ t, step { State.reset with pc := 0x0FFF#16 } = .next t ∧ ¬t.live) ∧
    (∃ t, step (atWord 0x00EE#16 State.reset) = .next t ∧ ¬t.live) ∧
    (∃ t, perform (.load (List.replicate 3585 0x11#8)) State.reset = .next t ∧ ¬t.live) := by
  refine ⟨⟨_, rfl, by decide⟩, ⟨_, rfl, by decide⟩, hostLoad (List.replicate 3585 0x11#8) State.reset, rfl, ?_⟩
  rcases hostLoad_cases (List.replicate 3585 0x11#8) State.reset with ⟨⟨k, hk⟩, -⟩ | ⟨-, -, h⟩ | ⟨-, h, -⟩
  · exact absurd hk.symm (Option.some_ne_none k)
  · rw [h]; exact Option.some_ne_none _
  · rw [List.length_replicate] at h; omega

/-- The three clauses: a fetch fault, a later fault, a live step that skips. -/
theorem witness_PcAfterEachInstruction :
    (0x0FFE < ({ State.reset with pc := 0x0FFF#16 } : State).pc.toNat ∧
      ∃ t, step { State.reset with pc := 0x0FFF#16 } = .next t) ∧
    ((atWord 0x00EE#16 State.reset).fetchable ∧ ∃ t, step (atWord 0x00EE#16 State.reset) = .next t ∧ ¬t.live) ∧
    ((atWord 0x3000#16 State.reset).fetchable ∧ decode (atWord 0x3000#16 State.reset).nextWord = .ok (.sei 0 0#8) ∧
      ∃ t, step (atWord 0x3000#16 State.reset) = .next t ∧ t.live) :=
  ⟨⟨by decide, _, rfl⟩, ⟨by decide, _, rfl, by decide⟩, by decide, rfl, _, rfl, rfl⟩

/-- A state of the invariant with a byte in memory, an entry on the stack and `PC` at its bound, and a step from it. -/
theorem witness_StepKeepsInvariant :
    let s := withBytes { State.reset with pc := 0x10FE#16, sp := 1, stack := State.reset.stack.set 0 0x1000#16 } 0xFFF [0x01#8]
    s.Inv ∧ ∃ t, step s = .next t := by
  refine ⟨⟨by decide, by decide, ?_⟩, _, rfl⟩
  intro k hk
  have h0 : k = 0 := Fin.ext (Nat.lt_one_iff.1 hk)
  subst h0
  decide

/-- A run of `Load`, `SetKey`, `Step`, `TickTimers` from the reset state, which meets the invariant. -/
theorem witness_EveryRunKeepsInvariant :
    State.reset.Inv ∧ ∃ t, performAll [.load [0x60#8, 0x2A#8], .setKey 3 true, .step, .tickTimers] State.reset = .next t ∧
      t.getV 0 = 0x2A#8 :=
  ⟨⟨rfl, by decide, fun k hk => absurd hk (Nat.not_lt_zero k.val)⟩, _, rfl, rfl⟩

theorem witness_DeadCoreObeysOnlyReset :
    ({ State.reset with fault := some .unknownOpcode } : State).fault = some .unknownOpcode ∧
      HostOp.reset ∉ [HostOp.step, .load [0x60#8], .tickTimers, .setKey 0 true, .clearRedraw] := by decide

/-- 1792 steps are the most that run. -/
theorem witness_ZeroedMemoryRunsNoOps : 1792 ≤ 1792 ∧ 0 ≤ 1792 := by decide

/-- One step from any address, and the last two words of memory, up to `PC` = 0x1000. -/
theorem witness_ZeroBytesAreSteppedOver :
    let s : State := { State.reset with pc := 0x0FFC#16 }
    (State.reset.live ∧ State.reset.pc.toNat + 2 * 1 ≤ 0x1000 ∧ ∀ a, State.reset.mem.read a = 0x00#8) ∧
      s.live ∧ s.pc.toNat + 2 * 2 ≤ 0x1000 ∧ ∀ a, s.pc.toNat ≤ a → a < s.pc.toNat + 2 * 2 → s.mem.read a = 0x00#8 :=
  ⟨⟨rfl, by decide, fun _ => rfl⟩, rfl, by decide, fun _ _ _ => rfl⟩

/-- T8: a JP to itself. -/
theorem witness_EndedRunStaysUnchanged : (atWord 0x1200#16 State.reset).ended :=
  ⟨by decide, by decide, 0x200#12, rfl, rfl⟩

/-- Both clauses, with 16 entries, one and none. -/
theorem witness_RetPopsOrUnderflows :
    0 < ({ State.reset with sp := 16 } : State).sp.val ∧ 0 < ({ State.reset with sp := 1 } : State).sp.val ∧
      State.reset.sp.val = 0 := by decide

/-- Both clauses, with no entry, 15 and 16. -/
theorem witness_CallPushesOrOverflows :
    State.reset.sp.val < 16 ∧ ({ State.reset with sp := 15 } : State).sp.val < 16 ∧
      ({ State.reset with sp := 16 } : State).sp.val = 16 := by decide

theorem witness_RetUndoesCall :
    ({ State.reset with sp := 15 } : State).sp.val < 16 ∧
      ∃ t, exec (.call 0xABC#12) { State.reset with sp := 15 } = .next t := ⟨by decide, _, rfl⟩

/-- RND's clauses: a bit that NN lacks, and NN all ones. -/
theorem witness_RndMasksAFreeByte : (0x0F#8).getLsbD 7 = false ∧ 0xFF#8 = 0xFF#8 := by decide

/-- ADD, SUB, SUBN, SHR and SHL: X other than 15 and X = 15; `VfOperandTable`: a register other than VF. -/
theorem witness_VfOperandTable : (0 : Reg) ≠ vf ∧ (14 : Reg) ≠ vf ∧ (15 : Reg) = vf := by decide

/-- N = 0 for any `I`; the last byte at address 4095; a full 15 rows. -/
theorem witness_DrwXorsTheSprite :
    ((0#4).toNat = 0 ∨ (State.reset.setI 0xFFFF#16).i.toNat + (0#4).toNat - 1 ≤ 4095) ∧
    ((1#4).toNat = 0 ∨ (State.reset.setI 0x0FFF#16).i.toNat + (1#4).toNat - 1 ≤ 4095) ∧
    ((15#4).toNat = 0 ∨ (State.reset.setI 0x0FF1#16).i.toNat + (15#4).toNat - 1 ≤ 4095) := by decide

/-- The pixels of S7: sprite bit 1 at column 63 lands in column 0, and column 7 is outside. -/
theorem witness_DrwXorsTheSprite_wraps :
    (0 : Fin 64).val = ((0x3F#8).toNat + 1) % 64 ∧ ∀ bit < 8, ¬(7 : Fin 64).val = ((0x3F#8).toNat + bit) % 64 := by decide

theorem witness_DrwReportsCollisionAndChange :
    (1#4).toNat = 0 ∨ (State.reset.setI 0x0FFF#16).i.toNat + (1#4).toNat - 1 ≤ 4095 := by decide

/-- The last sprite byte just above 4095. -/
theorem witness_DrwOutOfBoundsChangesNothing :
    0 < (2#4).toNat ∧ 4095 < (State.reset.setI 0x0FFF#16).i.toNat + (2#4).toNat - 1 := by decide

/-- T98's DRW, twice. -/
theorem witness_DrwTwiceRestoresDisplay :
    let s := withBytes ((regs [(0, 0x04#8), (1, 0x04#8)]).setI 0x0300#16) 0x300 [0xFF#8]
    ∃ t u, exec (.drw 0 1 1#4) s = .next t ∧ t.getV 0 = s.getV 0 ∧ t.getV 1 = s.getV 1 ∧
      exec (.drw 0 1 1#4) t = .next u :=
  ⟨_, _, rfl, rfl, rfl, rfl⟩

/-- Both clauses, and a single held key. -/
theorem witness_WkeyTakesAHeldKeyOrRewinds :
    ({ State.reset with keys := 0x8000#16 } : State).keys ≠ 0#16 ∧ (0x8000#16 : Word) = 1#16 <<< 15 ∧
      State.reset.keys = 0#16 := by decide

theorem witness_KeyWaitSpinsInPlace :
    (atWord 0xF30A#16 State.reset).live ∧ (atWord 0xF30A#16 State.reset).fetchable ∧
      decode (atWord 0xF30A#16 State.reset).nextWord = .ok (.wkey 3) ∧ (atWord 0xF30A#16 State.reset).keys = 0#16 := by
  decide

/-- Both clauses, where they meet. -/
theorem witness_BcdStoresThreeDigits :
    (State.reset.setI 0x0FFD#16).base + 2 ≤ 4095 ∧ 4095 < (State.reset.setI 0x0FFE#16).base + 2 := by decide

/-- Both clauses, where they meet, with one register and with sixteen. -/
theorem witness_StmStoresV0ToVx :
    (State.reset.setI 0x0FFF#16).base + (0 : Reg).val ≤ 4095 ∧ (State.reset.setI 0x0FF0#16).base + (15 : Reg).val ≤ 4095 ∧
      4095 < (State.reset.setI 0x0FF1#16).base + (15 : Reg).val := by decide

/-- As for STM. -/
theorem witness_LdmLoadsV0ToVx :
    (State.reset.setI 0x0FFF#16).base + (0 : Reg).val ≤ 4095 ∧ (State.reset.setI 0x0FF0#16).base + (15 : Reg).val ≤ 4095 ∧
      4095 < (State.reset.setI 0x1000#16).base + (0 : Reg).val := by decide

theorem witness_LdmRestoresWhatStmSaved :
    ∃ t, (State.reset.setI 0x0FF0#16).base + (15 : Reg).val ≤ 4095 ∧ exec (.stm 15) (State.reset.setI 0x0FF0#16) = .next t ∧
      (t.setV 0 0x77#8).i = t.i ∧ sameMemory t (t.setV 0 0x77#8) :=
  ⟨_, by decide, rfl, rfl, fun _ => rfl⟩

/-- T124, with `PC` already at the word to be stored over; the stored word is 0x602A. -/
theorem witness_StoreIsSeenByNextFetch :
    let s := (regs [(0, 0x60#8), (1, 0x2A#8)]).setI 0x0200#16
    s.live ∧ 1 ≤ (1 : Reg).val ∧ s.i = s.pc ∧ s.base + (1 : Reg).val ≤ 4095 ∧ (∃ t, exec (.stm 1) s = .next t) ∧
      decode (wordOfBytes (s.getV 0) (s.getV 1)) = .ok (.ldi 0 0x2A#8) :=
  ⟨rfl, by decide, rfl, by decide, ⟨_, rfl⟩, rfl⟩

/-- ADD writes VF, a register that is not its destination. -/
theorem witness_RegistersWrittenAreTheTables :
    ∃ t, exec (.add 0 1) (regs [(0, 0xFF#8), (1, 0x01#8)]) = .next t ∧ t.getV vf ≠ (regs [(0, 0xFF#8), (1, 0x01#8)]).getV vf :=
  ⟨_, rfl, by decide⟩

/-- Every clause of `EachStateHasItsWriters`: an instruction that changes `I`, the stack, `DT`, `ST`, the display, memory. -/
theorem witness_EachStateHasItsWriters :
    (∃ t, exec (.lda 0x123#12) State.reset = .next t ∧ t.i ≠ State.reset.i) ∧
    (∃ t, exec (.call 0x123#12) State.reset = .next t ∧ t.sp ≠ State.reset.sp) ∧
    (∃ t, exec (.stdt 0) (regs [(0, 0x01#8)]) = .next t ∧ t.dt ≠ (regs [(0, 0x01#8)]).dt) ∧
    (∃ t, exec (.stst 0) (regs [(0, 0x01#8)]) = .next t ∧ t.st ≠ (regs [(0, 0x01#8)]).st) ∧
    (∃ t, exec .cls State.reset = .next t ∧ t.redraw ≠ State.reset.redraw) ∧
    (∃ t, exec (.bcd 0) (regs [(0, 0x01#8)]) = .next t ∧ t.mem.read 2 ≠ (regs [(0, 0x01#8)]).mem.read 2) :=
  ⟨⟨_, rfl, by decide⟩, ⟨_, rfl, by decide⟩, ⟨_, rfl, by decide⟩, ⟨_, rfl, by decide⟩, ⟨_, rfl, by decide⟩,
    ⟨_, rfl, by decide⟩⟩

/-- An operation other than `Reset` and `Step`, and a step that changes `DT` and one that changes `ST`. -/
theorem witness_HostOperationsKeepTheirDistance :
    (HostOp.tickTimers ≠ .reset ∧ HostOp.tickTimers ≠ .step ∧ ∃ t, perform .tickTimers State.reset = .next t) ∧
    (∃ t, perform .step (atWord 0xF015#16 (regs [(0, 0x05#8)])) = .next t ∧ t.dt ≠ 0x00#8) ∧
    (∃ t, perform .step (atWord 0xF018#16 (regs [(0, 0x05#8)])) = .next t ∧ t.st ≠ 0x00#8) :=
  ⟨⟨by decide, by decide, _, rfl⟩, ⟨_, rfl, by decide⟩, ⟨_, rfl, by decide⟩⟩

/-- A step that writes `ST`, from states that differ in it. -/
theorem witness_OutputsDoNotFeedBack :
    (∃ t, step (atWord 0xF018#16 (regs [(0, 0x05#8)])) = .next t ∧ t.st = 0x05#8) ∧
    (∃ t, step { atWord 0xF018#16 (regs [(0, 0x05#8)]) with st := 0x09#8, redraw := true } = .next t ∧ t.redraw = true) :=
  ⟨⟨_, rfl, rfl⟩, _, rfl, rfl⟩

/-- Two states with different bits in `STACK[1]` and one valid entry, about to execute a RET. -/
theorem witness_StaleEntriesAreUnobservable :
    let s := atWord 0x00EE#16 { State.reset with sp := 1, stack := State.reset.stack.set 0 0x0456#16 }
    let s' := { s with stack := s.stack.set 1 0x0999#16 }
    sameButStale s s' ∧ s ≠ s' ∧ ∃ t, step s = .next t := by
  refine ⟨⟨rfl, fun k hk => ?_⟩, ?_, _, rfl⟩
  · have h0 : k = 0 := Fin.ext (Nat.lt_one_iff.1 hk)
    subst h0
    rfl
  · intro h
    exact absurd (congrArg (fun u => u.stackAt 1) h) (by decide)

/-- A live core and a dead one. -/
theorem witness_TickTimersCountsDownToZero :
    State.reset.live ∧ ¬({ State.reset with fault := some .stackOverflow } : State).live := by decide

/-- A live core and a dead one; a key that is the one set and one that is not. -/
theorem witness_SetKeyChangesOneKey :
    State.reset.live ∧ ¬({ State.reset with fault := some .stackOverflow } : State).live ∧ (15 : Key) ≠ 0 := by decide

/-- A live core, a dead one, and a step from a state with the flag set. -/
theorem witness_ClearRedrawOnlyClearsTheFlag :
    State.reset.live ∧ ¬({ State.reset with fault := some .stackOverflow } : State).live ∧
      (State.reset.setRedraw true).redraw = true ∧ ∃ t, step (State.reset.setRedraw true) = .next t :=
  ⟨rfl, by decide, rfl, _, rfl⟩

/-- The three clauses: 3584 bytes, 3585 bytes, a dead core. -/
theorem witness_LoadCopiesTheImage :
    (State.reset.live ∧ (List.replicate 3584 0x11#8).length ≤ 3584) ∧ 3584 < (List.replicate 3585 0x11#8).length ∧
      ¬({ State.reset with fault := some .unknownOpcode } : State).live := by
  rw [List.length_replicate, List.length_replicate]
  decide

end Sys2Proof.Tests
end

section
/-! SUPPORT. How `Execute` leaves `PC` (spec/10_state.md R19): what each instruction that can raise may do, and that every
instruction either raises and changes nothing but `FAULT` (spec/60_exceptions.md R128) or leaves `PC` at its entry of R19. -/

namespace Sys2Proof.Machine

/-! ### `PC` arithmetic, which never wraps (R20) -/

theorem toNat_add_two {p : Word} (h : p.toNat ≤ 0xFFFD) : (p + 2#16).toNat = p.toNat + 2 := by
  bv_omega

/-- JPV0's target is the plain sum (spec/40_control.md R74). -/
theorem toNat_addrOperand_add_byteOperand (nnn : Addr) (b : Byte) :
    (addrOperand nnn + byteOperand b).toNat = nnn.toNat + b.toNat := by
  rw [BitVec.toNat_add, toNat_addrOperand, toNat_byteOperand]
  exact Nat.mod_eq_of_lt (by omega)

/-- `PC` after a skip that was fetched at `a` (spec/41_skip.md R75). -/
theorem State.toNat_skipIf_pc {s : State} {a : Nat} (ha : a ≤ 0x0FFE) (hpc : s.pc.toNat = a + 2) (c : Bool) :
    (s.skipIf c).pc.toNat = if c then a + 4 else a + 2 := by
  rw [State.skipIf_pc]
  cases c
  · exact hpc
  · have hadv := toNat_add_two (p := s.pc) (by omega)
    exact hadv.trans (congrArg (· + 2) hpc)

theorem State.toNat_rewind_pc {s : State} {a : Nat} (hpc : s.pc.toNat = a + 2) : s.rewind.pc.toNat = a := by
  rw [State.rewind_pc]
  bv_omega

/-! ### The instructions that can raise -/

/-- `STACK[SP-1]` by its own index, where there is one (spec/10_state.md R21). -/
theorem State.top_of_pos (s : State) (h : 0 < s.sp.val) : s.top = s.stackAt ⟨s.sp.val - 1, by omega⟩ :=
  congrArg s.stackAt (Fin.ext (Nat.mod_eq_of_lt (by omega)))

/-- What RET can do (spec/40_control.md R71). -/
theorem execRet_cases (s : State) :
    (∃ h : 0 < s.sp.val, execRet s = .next ({ s with sp := ⟨s.sp.val - 1, by omega⟩ }.setPc s.top)) ∨
      (s.sp.val = 0 ∧ execRet s = .next (s.raise .stackUnderflow)) := by
  unfold execRet
  rcases Nat.eq_zero_or_pos s.sp.val with h | h
  · exact .inr ⟨h, by rw [s.pop_of_empty h]⟩
  · exact .inl ⟨h, by rw [s.pop_of_pos h, s.top_of_pos h]⟩

/-- What CALL can do (spec/40_control.md R73). -/
theorem execCall_cases (nnn : Addr) (s : State) :
    (∃ h : s.sp.val < 16, execCall nnn s =
        .next ({ s with stack := s.stack.set s.sp.val s.pc, sp := ⟨s.sp.val + 1, by omega⟩ }.setPc (addrOperand nnn))) ∨
      (s.sp.val = 16 ∧ execCall nnn s = .next (s.raise .stackOverflow)) := by
  unfold execCall
  by_cases h : s.sp.val < 16
  · exact .inl ⟨h, by rw [s.push_of_lt s.pc h]⟩
  · have hfull : s.sp.val = 16 := by omega
    exact .inr ⟨hfull, by rw [s.push_of_full s.pc hfull]⟩

/-- What DRW can do (spec/45_display.md R102, R103). -/
theorem execDrw_cases (x y : Reg) (n : Nibble) (s : State) :
    ((n.toNat = 0 ∨ s.base + n.toNat ≤ 4096) ∧ execDrw x y n s =
        .next ((s.setV vf 0#8).plotAll (spriteDots (s.getV x) (s.getV y) 0 (s.mem.readBytes s.base n.toNat)))) ∨
      (n.toNat ≠ 0 ∧ 4096 < s.base + n.toNat ∧ execDrw x y n s = .next (s.raise .outOfBoundsMemoryAccess)) := by
  unfold execDrw
  rcases s.mem.load_cases s.base n.toNat with ⟨h, he⟩ | ⟨hn, h, he⟩
  · exact .inl ⟨h, by rw [he]⟩
  · exact .inr ⟨hn, h, by rw [he]⟩

/-- What LDM can do (spec/48_memops.md R121). -/
theorem execLdm_cases (x : Reg) (s : State) :
    (s.base + x.val + 1 ≤ 4096 ∧ execLdm x s = .next (s.setRegs 0 (s.mem.readBytes s.base (x.val + 1)))) ∨
      (4096 < s.base + x.val + 1 ∧ execLdm x s = .next (s.raise .outOfBoundsMemoryAccess)) := by
  unfold execLdm
  rcases s.mem.load_cases s.base (x.val + 1) with ⟨h, he⟩ | ⟨-, h, he⟩
  · exact .inl ⟨by omega, by rw [he]⟩
  · exact .inr ⟨by omega, by rw [he]⟩

/-! ### Every instruction -/

/-- `t` is reached from `s` by an error and nothing else, or with `FAULT` kept and `PC` at `p`. -/
def raisedOrAt (s t : State) (p : Nat) : Prop :=
  (∃ k, t = s.raise k) ∨ (t.fault = s.fault ∧ t.pc.toNat = p)

theorem State.storeAtI_raisedOrAt {s : State} {p : Nat} (hpc : s.pc.toNat = p) (bs : List Byte) :
    raisedOrAt s (s.storeAtI bs) p := by
  rcases s.storeAtI_cases bs with ⟨-, he⟩ | ⟨-, -, he⟩
  · rw [he]; exact .inr ⟨rfl, hpc⟩
  · rw [he]; exact .inl ⟨_, rfl⟩

theorem State.skipIf_raisedOrAt {s : State} {a p : Nat} {c : Bool} (ha : a ≤ 0x0FFE) (hpc : s.pc.toNat = a + 2)
    (hp : (if c then a + 4 else a + 2) = p) : raisedOrAt s (s.skipIf c) p :=
  .inr ⟨s.skipIf_fault c, (State.toNat_skipIf_pc ha hpc c).trans hp⟩

/-- The table of R19 reads no `PC` from the state: the address comes as `a`. -/
@[simp] theorem pcAfter_setPc (a : Nat) (i : Instr) (s : State) (p : Word) : pcAfter a i (s.setPc p) = pcAfter a i s := by
  cases i <;> rfl

/-- An instruction fetched at `a` raises and changes nothing else, or leaves `PC` at its entry of R19's table. -/
theorem exec_raisedOrAt {i : Instr} {s t : State} {a : Nat} (ha : a ≤ 0x0FFE) (hpc : s.pc.toNat = a + 2)
    (h : exec i s = .next t) : raisedOrAt s t (pcAfter a i s) := by
  cases i with
  | cls | sys | ldi | addi | mov | or | and | xor | add | sub | shr | subn | shl | lda | rnd | lddt | stdt | stst | adda
  | glyph =>
    obtain rfl := Host.Outcome.next.inj h
    exact .inr ⟨rfl, hpc⟩
  | jp nnn =>
    obtain rfl := Host.Outcome.next.inj h
    exact .inr ⟨rfl, toNat_addrOperand nnn⟩
  | jpv0 nnn =>
    obtain rfl := Host.Outcome.next.inj h
    exact .inr ⟨rfl, toNat_addrOperand_add_byteOperand nnn _⟩
  | call nnn =>
    rcases execCall_cases nnn s with ⟨_, he⟩ | ⟨-, he⟩ <;> obtain rfl := Host.Outcome.next.inj (he.symm.trans h)
    · exact .inr ⟨rfl, toNat_addrOperand nnn⟩
    · exact .inl ⟨_, rfl⟩
  | ret =>
    rcases execRet_cases s with ⟨_, he⟩ | ⟨-, he⟩ <;> obtain rfl := Host.Outcome.next.inj (he.symm.trans h)
    · exact .inr ⟨rfl, rfl⟩
    · exact .inl ⟨_, rfl⟩
  | sei | snei | ser | sner | skp =>
    obtain rfl := Host.Outcome.next.inj h
    exact State.skipIf_raisedOrAt ha hpc (by simp [pcAfter])
  | sknp x =>
    obtain rfl := Host.Outcome.next.inj h
    exact State.skipIf_raisedOrAt ha hpc (by cases hk : keyHeld s.keys (s.getV x) <;> simp [pcAfter, hk])
  | wkey x =>
    by_cases hk : s.keys = 0#16
    · obtain rfl := Host.Outcome.next.inj ((if_pos hk).symm.trans h)
      exact .inr ⟨rfl, (State.toNat_rewind_pc hpc).trans (if_pos hk).symm⟩
    · obtain rfl := Host.Outcome.next.inj ((if_neg hk).symm.trans h)
      exact .inr ⟨rfl, hpc.trans (if_neg hk).symm⟩
  | drw x y n =>
    rcases execDrw_cases x y n s with ⟨-, he⟩ | ⟨-, -, he⟩ <;> obtain rfl := Host.Outcome.next.inj (he.symm.trans h)
    · obtain ⟨-, hpc', -, -, -, -, -, -, hfault, -⟩ := State.plotAll_frame
        (spriteDots (s.getV x) (s.getV y) 0 (s.mem.readBytes s.base n.toNat)) (s.setV vf 0#8)
      exact .inr ⟨hfault, (congrArg BitVec.toNat hpc').trans hpc⟩
    · exact .inl ⟨_, rfl⟩
  | bcd | stm =>
    obtain rfl := Host.Outcome.next.inj h
    exact State.storeAtI_raisedOrAt hpc _
  | ldm x =>
    rcases execLdm_cases x s with ⟨-, he⟩ | ⟨-, he⟩ <;> obtain rfl := Host.Outcome.next.inj (he.symm.trans h)
    · obtain ⟨-, hpc', -, -, -, -, -, -, -, -, hfault, -⟩ :=
        State.setRegs_frame (s.mem.readBytes s.base (x.val + 1)) s 0
      exact .inr ⟨hfault, (congrArg BitVec.toNat hpc').trans hpc⟩
    · exact .inl ⟨_, rfl⟩

end Sys2Proof.Machine
end

section
/-! SUPPORT. The registers, stack entries and pixels of the reset state (spec/10_state.md R32). -/

namespace Sys2Proof.Machine

@[simp] theorem State.getV_reset (r : Reg) : State.reset.getV r = 0#8 := Vector.getElem_replicate _

@[simp] theorem State.stackAt_reset (k : Fin 16) : State.reset.stackAt k = 0#16 := Vector.getElem_replicate _

@[simp] theorem State.getPixel_reset (x : Fin 64) (y : Fin 32) : State.reset.getPixel x y = false :=
  Display.getPixel_blank x y

end Sys2Proof.Machine
end

section
/-! The statements about the state (spec/10_state.md): `PC` after each instruction and the reset values. -/

namespace Sys2Proof.Proofs

open Sys2Proof Sys2Proof.Machine

/-- Settles O9, by what a step can do: a fetch fault, a decode fault, or the instruction's own effect on `PC`. -/
theorem pcAfterEachInstruction : Obligations.PcAfterEachInstruction := by
  intro s t hlive hstep
  rcases step_cases s with ⟨⟨k, hk⟩, -⟩ | ⟨-, hout, hs⟩ | ⟨-, hin, e, -, hs⟩ | ⟨-, hin, i, hi, hs⟩
  · exact absurd (hk.symm.trans hlive) (Option.some_ne_none k)
  · obtain rfl := Host.Outcome.next.inj (hs.symm.trans hstep)
    exact ⟨fun _ => rfl, fun hf => absurd hf (by omega), fun _ hf => absurd hf (by omega)⟩
  · obtain rfl := Host.Outcome.next.inj (hs.symm.trans hstep)
    exact ⟨fun hout => absurd hin (by omega), fun _ _ => toNat_add_two (by omega),
      fun _ _ ht => absurd ht (Option.some_ne_none _)⟩
  · have hadv : (s.setPc (s.pc + 2#16)).pc.toNat = s.pc.toNat + 2 := toNat_add_two (by omega)
    rcases exec_raisedOrAt hin hadv (hs.symm.trans hstep) with ⟨k, rfl⟩ | ⟨hfault, hpc⟩
    · exact ⟨fun hout => absurd hin (by omega), fun _ _ => hadv, fun _ _ ht => absurd ht (Option.some_ne_none k)⟩
    · refine ⟨fun hout => absurd hin (by omega), fun _ hdead => absurd (hfault.trans hlive) hdead, fun j _ _ hj => ?_⟩
      obtain rfl : i = j := Except.ok.inj (hi.symm.trans hj)
      rwa [pcAfter_setPc] at hpc

/-- Settles O15: `Reset` gives the reset state but for the count of draws, from any state. -/
theorem resetGivesEveryResetValue : Obligations.ResetGivesEveryResetValue := fun s =>
  ⟨hostReset s, rfl, State.getV_reset, rfl, rfl, State.stackAt_reset, rfl, rfl, rfl, rfl, State.getPixel_reset, rfl,
    Memory.read_nil, rfl⟩

end Sys2Proof.Proofs
end

section
/-! SUPPORT. The fetch and the step on each side of the fetch bound (spec/20_memory.md R43). -/

namespace Sys2Proof.Machine

theorem State.fetch_of_le {s : State} (h : s.pc.toNat ≤ 0x0FFE) :
    s.fetch = some (s.mem.read s.pc.toNat, s.mem.read (s.pc.toNat + 1), s.setPc (s.pc + 2#16)) := by
  rcases s.fetch_cases with ⟨-, he⟩ | ⟨hout, -⟩
  · exact he
  · exact absurd h (Nat.not_le.2 hout)

theorem State.fetch_of_gt {s : State} (h : 0x0FFE < s.pc.toNat) : s.fetch = none := by
  rcases s.fetch_cases with ⟨hin, -⟩ | ⟨-, he⟩
  · exact absurd hin (Nat.not_le.2 h)
  · exact he

/-- A live core's fetch fault is the whole step (spec/30_encoding.md R64). -/
theorem step_of_pc_gt {s : State} (hlive : s.live) (h : 0x0FFE < s.pc.toNat) :
    step s = .next (s.raise .outOfBoundsMemoryAccess) := by
  rcases step_cases s with ⟨⟨k, hk⟩, -⟩ | ⟨-, -, hs⟩ | ⟨-, hin, -⟩ | ⟨-, hin, -⟩
  · exact absurd (hk.symm.trans hlive) (Option.some_ne_none k)
  · exact hs
  · exact absurd hin (Nat.not_le.2 h)
  · exact absurd hin (Nat.not_le.2 h)

end Sys2Proof.Machine
end

section
/-! The statement about the fetch (spec/20_memory.md). -/

namespace Sys2Proof.Proofs

open Sys2Proof Sys2Proof.Machine

/-- Settles O6, by what the fetch does on each side of 0x0FFE. -/
theorem fetchReadsBigEndianWord : Obligations.FetchReadsBigEndianWord := by
  intro s
  constructor
  · intro hout
    exact ⟨State.fetch_of_gt hout, fun hlive => step_of_pc_gt hlive hout⟩
  · intro hin
    have hadv : (s.setPc (s.pc + 2#16)).pc.toNat = (s.pc.toNat + 2) % 65536 := BitVec.toNat_add s.pc 2#16
    exact ⟨_, _, _, State.fetch_of_le hin, toNat_wordOfBytes _ _, rfl, hadv⟩

end Sys2Proof.Proofs
end

section
/-! SUPPORT. What writing `PC`, popping and pushing leave unchanged (spec/10_state.md R18, R22). -/

namespace Sys2Proof.Machine

/-- A jump changes `PC` alone (spec/40_control.md R69). -/
theorem State.onlyRegs_setPc (s : State) (p : Word) : onlyRegs [] s (s.setPc p) :=
  ⟨fun _ _ => rfl, rfl, ⟨rfl, rfl⟩, ⟨rfl, rfl⟩, rfl, ⟨rfl, rfl⟩, fun _ => rfl, rfl⟩

/-- The newest entry is the one whose number is one below `SP` (spec/10_state.md R21). -/
theorem State.top_eq_stackAt {s : State} {k : Fin 16} (hk : k.val + 1 = s.sp.val) : s.top = s.stackAt k :=
  congrArg s.stackAt (Fin.ext (by rw [Fin.val_ofNat]; omega))

end Sys2Proof.Machine
end

section
/-! The statements about SYS, RET, JP, CALL and JPV0 (spec/40_control.md). -/

namespace Sys2Proof.Proofs

open Sys2Proof Sys2Proof.Machine

/-- Settles O18, by the two things RET can do. -/
theorem retPopsOrUnderflows : Obligations.RetPopsOrUnderflows := by
  intro s
  rcases execRet_cases s with ⟨hpos, he⟩ | ⟨hempty, he⟩
  · have hsp : s.sp.val - 1 + 1 = s.sp.val := Nat.sub_add_cancel hpos
    exact ⟨fun _ => ⟨_, he, fun _ => State.top_eq_stackAt, hsp, rfl, fun _ _ => rfl, rfl, ⟨rfl, rfl⟩, rfl, ⟨rfl, rfl⟩,
      fun _ => rfl, rfl⟩, fun hempty => absurd hempty hpos.ne'⟩
  · exact ⟨fun hpos => absurd hempty hpos.ne', fun _ => he⟩

/-- Settles O19, by the two things CALL can do. -/
theorem callPushesOrOverflows : Obligations.CallPushesOrOverflows := by
  intro s nnn
  rcases execCall_cases nnn s with ⟨hroom, he⟩ | ⟨hfull, he⟩
  · exact ⟨fun _ => ⟨_, he, toNat_addrOperand nnn, rfl, s.stackAt_set s.pc s.sp hroom, fun _ _ => rfl, rfl, ⟨rfl, rfl⟩, rfl,
      ⟨rfl, rfl⟩, fun _ => rfl, rfl⟩, fun hfull => absurd hfull hroom.ne⟩
  · exact ⟨fun hroom => absurd hfull hroom.ne, fun _ => he⟩

/-- Settles O20: each jump is one write of `PC`, and JPV0's sum is taken modulo the word size. -/
theorem jumpsReachTheirTargets : Obligations.JumpsReachTheirTargets := by
  intro s nnn
  have hsum : (addrOperand nnn + byteOperand (s.getV 0)).toNat = (nnn.toNat + (s.getV 0).toNat) % 65536 := by
    rw [BitVec.toNat_add, toNat_addrOperand, toNat_byteOperand]
  exact ⟨rfl, ⟨_, rfl, toNat_addrOperand nnn, s.onlyRegs_setPc _⟩, ⟨_, rfl, hsum, s.onlyRegs_setPc _⟩⟩

end Sys2Proof.Proofs
end

section
/-! SUPPORT. What a skip does to `PC` and leaves unchanged (spec/41_skip.md R75). -/

namespace Sys2Proof.Machine

/-- A skip changes `PC` alone, whether it is taken or not. -/
theorem State.onlyRegs_skipIf (s : State) (c : Bool) : onlyRegs [] s (s.skipIf c) := by
  rcases s.skipIf_cases c with ⟨-, he⟩ | ⟨-, he⟩ <;> rw [he]
  · exact s.onlyRegs_setPc _
  · exact s.onlyRegs_setPc s.pc

/-- A skip adds 2 or 0 to any `PC`, modulo the word size (R75). -/
theorem State.toNat_skipIf_pc_mod (s : State) (c : Bool) :
    (s.skipIf c).pc.toNat = (s.pc.toNat + if c then 2 else 0) % 65536 := by
  rw [State.skipIf_pc]
  cases c
  · exact (Nat.mod_eq_of_lt s.pc.isLt).symm
  · exact BitVec.toNat_add s.pc 2#16

/-- What an instruction that only skips does, by the proposition its condition decides. -/
theorem exec_of_skipIf {i : Instr} {s : State} {c : Bool} {p : Prop} [Decidable p]
    (h : exec i s = .next (s.skipIf c)) (hc : c = true ↔ p) :
    ∃ t, exec i s = .next t ∧ onlyRegs [] s t ∧ t.pc.toNat = (s.pc.toNat + if p then 2 else 0) % 65536 := by
  refine ⟨_, h, s.onlyRegs_skipIf c, ?_⟩
  rw [s.toNat_skipIf_pc_mod c]
  simp only [hc]

end Sys2Proof.Machine
end

section
/-! The statement about SEI, SNEI, SER and SNER (spec/41_skip.md). -/

namespace Sys2Proof.Proofs

open Sys2Proof Sys2Proof.Machine

/-- Settles O22: each of the four is one skip, on the equality or the inequality of its two bytes. -/
theorem registerSkips : Obligations.RegisterSkips := fun _ _ _ _ =>
  ⟨exec_of_skipIf rfl beq_iff_eq, exec_of_skipIf rfl bne_iff_ne, exec_of_skipIf rfl beq_iff_eq,
    exec_of_skipIf rfl bne_iff_ne⟩

end Sys2Proof.Proofs
end

section
/-! SUPPORT. What writing one register leaves unchanged (spec/10_state.md R14). -/

namespace Sys2Proof.Machine

/-- A register write changes that register alone: VF too is kept unless it is the one written. -/
theorem State.onlyRegs_setV (s : State) (x : Reg) (b : Byte) : onlyRegs [x] s (s.setV x b) :=
  ⟨fun _ hr => s.getV_setV_other (List.ne_of_not_mem_cons hr) b, rfl, ⟨rfl, rfl⟩, ⟨rfl, rfl⟩, rfl, ⟨rfl, rfl⟩,
    fun _ => rfl, rfl⟩

/-- What an instruction that writes one register and nothing else does. -/
theorem exec_of_setV {i : Instr} {s : State} {x : Reg} {b : Byte} (h : exec i s = .next (s.setV x b)) :
    ∃ t, exec i s = .next t ∧ t.getV x = b ∧ onlyRegs [x] s t ∧ t.pc = s.pc :=
  ⟨_, h, s.getV_setV_same x b, s.onlyRegs_setV x b, s.setV_pc x b⟩

end Sys2Proof.Machine
end

section
/-! The statement about LDI and ADDI (spec/42_immediate.md). -/

namespace Sys2Proof.Proofs

open Sys2Proof Sys2Proof.Machine

/-- Settles O24: each of the two is one register write, and ADDI's sum is the byte sum, taken modulo 256 (R81, R82). -/
theorem immediateResults : Obligations.ImmediateResults := by
  intro s x nn
  refine ⟨exec_of_setV rfl, ?_⟩
  obtain ⟨t, hexec, hsum, hframe⟩ := exec_of_setV (i := .addi x nn) (s := s) (x := x) (b := s.getV x + nn) rfl
  have hmod : (t.getV x).toNat = ((s.getV x).toNat + nn.toNat) % 256 := by rw [hsum, BitVec.toNat_add]
  exact ⟨t, hexec, hmod, hframe⟩

end Sys2Proof.Proofs
end

section
/-! SUPPORT. What the logical instructions write, bit by bit, and the two writes of ADD, SUB, SHR, SUBN and SHL
(spec/43_alu.md R84, R86 to R95). -/

namespace Sys2Proof.Machine

/-! ### One register write, read bit by bit -/

/-- An instruction that writes one register and nothing else, by the bits of the byte it writes. -/
theorem exec_of_setV_bits {i : Instr} {s : State} {x : Reg} {b : Byte} {bit : Nat → Bool}
    (h : exec i s = .next (s.setV x b)) (hbit : ∀ k, b.getLsbD k = bit k) :
    ∃ t, exec i s = .next t ∧ onlyRegs [x] s t ∧ t.pc = s.pc ∧ ∀ k, (t.getV x).getLsbD k = bit k := by
  obtain ⟨t, hexec, hx, hframe, hpc⟩ := exec_of_setV h
  exact ⟨t, hexec, hframe, hpc, fun k => by rw [hx, hbit]⟩

/-! ### Bytes -/

theorem toNat_byte_sub (a b : Byte) : (a - b).toNat = (a.toNat + 256 - b.toNat) % 256 := by
  have hb : b.toNat < 256 := b.isLt
  rw [BitVec.toNat_sub]
  congr 1
  omega

theorem toNat_byte_shiftRight_one (a : Byte) : (a >>> 1).toNat = a.toNat / 2 := by
  rw [BitVec.toNat_ushiftRight, Nat.shiftRight_eq_div_pow, pow_one]

theorem toNat_byte_shiftLeft_one (a : Byte) : (a <<< 1).toNat = a.toNat * 2 % 256 := by
  rw [BitVec.toNat_shiftLeft, Nat.shiftLeft_eq, pow_one]

/-- The bit SHR shifts out is the remainder of the halving (R92). -/
theorem toNat_flagByte_shrFlag (a : Byte) : (flagByte (shrFlag a)).toNat = a.toNat % 2 := by
  simp only [toNat_flagByte, shrFlag, BitVec.getLsbD, Nat.testBit_zero, decide_eq_true_eq]
  split <;> omega

/-- The bit SHL shifts out is the carry of the doubling (R94). -/
theorem toNat_flagByte_shlFlag (a : Byte) : (flagByte (shlFlag a)).toNat = a.toNat / 128 := by
  have ha : a.toNat < 256 := a.isLt
  simp only [toNat_flagByte, shlFlag, BitVec.getLsbD, Nat.testBit_eq_decide_div_mod_eq, decide_eq_true_eq]
  split <;> omega

theorem flagByte_shiftRight_one (c : Bool) : flagByte c >>> 1 = 0x00#8 := by cases c <;> rfl

theorem toNat_flagByte_shiftLeft_one (c : Bool) : (flagByte c <<< 1).toNat = 2 * (flagByte c).toNat := by
  cases c <;> rfl

/-! ### The two writes -/

/-- A flag-producing instruction changes VX and VF alone. -/
theorem State.onlyRegs_setFlagAndResult (s : State) (x : Reg) (flag : State → Bool) (result : State → Byte) :
    onlyRegs [x, vf] s (s.setFlagAndResult x flag result) := by
  refine ⟨fun r hr => ?_, rfl, ⟨rfl, rfl⟩, ⟨rfl, rfl⟩, rfl, ⟨rfl, rfl⟩, fun _ => rfl, rfl⟩
  obtain ⟨hx, hvf⟩ : r ≠ x ∧ r ≠ vf := by simpa using hr
  rw [State.getV_setFlagAndResult, if_neg hx, if_neg hvf]

/-- What an instruction that writes a flag and a result does: the result is formed from the file after the flag write (R84). -/
theorem exec_of_setFlagAndResult {i : Instr} {s : State} {x : Reg} {flag : State → Bool} {result : State → Byte}
    (h : exec i s = .next (s.setFlagAndResult x flag result)) :
    ∃ t, exec i s = .next t ∧ onlyRegs [x, vf] s t ∧ t.pc = s.pc ∧
      t.getV x = result (s.setV vf (flagByte (flag s))) ∧ (x ≠ vf → t.getV vf = flagByte (flag s)) := by
  refine ⟨_, h, s.onlyRegs_setFlagAndResult x flag result, rfl, ?_, fun hx => ?_⟩
  · rw [State.getV_setFlagAndResult, if_pos rfl]
  · rw [State.getV_setFlagAndResult, if_neg (Ne.symm hx), if_pos rfl]

/-- An operand read again after the flag write: VF reads the flag, any other register its old value (R84). -/
theorem State.toNat_getV_setV_vf_flagByte (s : State) (r : Reg) (c : Bool) :
    ((s.setV vf (flagByte c)).getV r).toNat = if r = vf then (if c then 1 else 0) else (s.getV r).toNat := by
  rw [State.getV_setV]
  split
  · exact toNat_flagByte c
  · rfl

/-- ADD, SUB and SUBN: the flag is the one `p` decides, and the result is `op` of the operands as they stand after the flag
write, `f` its value as a number. -/
theorem exec_of_flaggedOp {i : Instr} {s : State} {x y : Reg} {flag : State → Bool} {op : Byte → Byte → Byte} {p : Prop}
    [Decidable p] {f : Nat → Nat → Nat}
    (h : exec i s = .next (s.setFlagAndResult x flag fun t => op (t.getV x) (t.getV y)))
    (hflag : flag s = true ↔ p) (hop : ∀ a b, (op a b).toNat = f a.toNat b.toNat) :
    ∃ t, exec i s = .next t ∧ onlyRegs [x, vf] s t ∧ t.pc = s.pc ∧
      let c := if p then 1 else 0
      (t.getV x).toNat = f (if x = vf then c else (s.getV x).toNat) (if y = vf then c else (s.getV y).toNat) ∧
        (x ≠ vf → (t.getV vf).toNat = c) := by
  obtain ⟨t, hexec, hframe, hpc, hx, hvf⟩ := exec_of_setFlagAndResult h
  refine ⟨t, hexec, hframe, hpc, ?_, fun hne => ?_⟩
  · simp only [hx, hop, State.toNat_getV_setV_vf_flagByte, hflag]
  · simp only [hvf hne, toNat_flagByte, hflag]

/-- SHR and SHL: away from VF the register is shifted and VF gets the bit shifted out; VF itself ends as its flag, shifted. -/
theorem exec_of_flaggedShift {i : Instr} {s : State} {x : Reg} {flag : Byte → Bool} {shift : Byte → Byte}
    (h : exec i s = .next (s.setFlagAndResult x (fun t => flag (t.getV x)) fun t => shift (t.getV x))) :
    ∃ t, exec i s = .next t ∧ onlyRegs [x, vf] s t ∧ t.pc = s.pc ∧
      (x ≠ vf → t.getV x = shift (s.getV x) ∧ t.getV vf = flagByte (flag (s.getV x))) ∧
      (x = vf → t.getV vf = shift (flagByte (flag (s.getV vf)))) := by
  obtain ⟨t, hexec, hframe, hpc, hx, hvf⟩ := exec_of_setFlagAndResult h
  refine ⟨t, hexec, hframe, hpc, fun hne => ⟨?_, hvf hne⟩, ?_⟩
  · rw [hx, s.getV_setV_other hne]
  · rintro rfl
    rw [hx, State.getV_setV_same]

end Sys2Proof.Machine
end

section
/-! The statements about MOV, OR, AND, XOR, ADD, SUB, SHR, SUBN and SHL (spec/43_alu.md). -/

namespace Sys2Proof.Proofs

open Sys2Proof Sys2Proof.Machine

/-- Settles O27: the flag is the comparison with 255, and the byte sum is taken modulo 256 (R90). -/
theorem addWritesCarryThenSum : Obligations.AddWritesCarryThenSum := fun _ _ _ =>
  exec_of_flaggedOp (op := (· + ·)) (f := fun m n => (m + n) % 256) rfl decide_eq_true_iff BitVec.toNat_add

/-- Settles O28: the flag is the comparison of the operands, and the byte difference is taken modulo 256 (R91). -/
theorem subWritesNotBorrowThenDifference : Obligations.SubWritesNotBorrowThenDifference := fun _ _ _ =>
  exec_of_flaggedOp (op := (· - ·)) (f := fun m n => (m + 256 - n) % 256) rfl decide_eq_true_iff toNat_byte_sub

/-- Settles O29: SUB's argument with VY as the minuend and VX as the subtrahend (R93). -/
theorem subnWritesNotBorrowThenDifference : Obligations.SubnWritesNotBorrowThenDifference := fun _ _ _ =>
  exec_of_flaggedOp (op := fun a b => b - a) (f := fun m n => (n + 256 - m) % 256) rfl decide_eq_true_iff
    fun a b => toNat_byte_sub b a

/-- Settles O30: the shift halves, and a flag, 0 or 1, shifts to 0 (R92, R95). -/
theorem shrShiftsVxRight : Obligations.ShrShiftsVxRight := by
  intro s x y
  obtain ⟨t, hexec, hframe, hpc, hother, hself⟩ :=
    exec_of_flaggedShift (i := .shr x y) (s := s) (x := x) (flag := shrFlag) (shift := (· >>> 1)) rfl
  refine ⟨t, hexec, hframe, hpc, fun hne => ?_, fun heq => ?_⟩
  · obtain ⟨hx, hvf⟩ := hother hne
    exact ⟨by rw [hx, toNat_byte_shiftRight_one], by rw [hvf, toNat_flagByte_shrFlag]⟩
  · rw [hself heq, flagByte_shiftRight_one]

/-- Settles O31: the shift doubles modulo 256, and a flag, 0 or 1, doubles without overflow (R94, R95). -/
theorem shlShiftsVxLeft : Obligations.ShlShiftsVxLeft := by
  intro s x y
  obtain ⟨t, hexec, hframe, hpc, hother, hself⟩ :=
    exec_of_flaggedShift (i := .shl x y) (s := s) (x := x) (flag := shlFlag) (shift := (· <<< 1)) rfl
  refine ⟨t, hexec, hframe, hpc, fun hne => ?_, fun heq => ?_⟩
  · obtain ⟨hx, hvf⟩ := hother hne
    exact ⟨by rw [hx, toNat_byte_shiftLeft_one], by rw [hvf, toNat_flagByte_shlFlag]⟩
  · rw [hself heq, toNat_flagByte_shiftLeft_one, toNat_flagByte_shlFlag]

/-- Settles O26: each of the four is one register write, read bit by bit for the last three (R86 to R89). -/
theorem logicResults : Obligations.LogicResults := fun _ _ _ =>
  ⟨exec_of_setV rfl, exec_of_setV_bits rfl fun _ => BitVec.getLsbD_or,
    exec_of_setV_bits rfl fun _ => BitVec.getLsbD_and, exec_of_setV_bits rfl fun _ => BitVec.getLsbD_xor⟩

end Sys2Proof.Proofs
end

section
/-! SUPPORT. What writing `I` does, and GLYPH's product (spec/44_index.md R96, R99). -/

namespace Sys2Proof.Machine

/-- What an instruction that writes `I` and nothing else does, by the number it writes. -/
theorem exec_of_setI {i : Instr} {s : State} {a : Word} {n : Nat} (h : exec i s = .next (s.setI a)) (ha : a.toNat = n) :
    ∃ t, exec i s = .next t ∧ t.i.toNat = n ∧ t = { s with i := t.i } :=
  ⟨_, h, ha, rfl⟩

/-- Five times the largest byte is below 65536, so GLYPH's product never wraps (R99). -/
theorem toNat_byteOperand_mul_five (b : Byte) : (byteOperand b * 5#16).toNat = b.toNat * 5 := by
  have hb : b.toNat < 256 := b.isLt
  have hmul : (byteOperand b * 5#16).toNat = b.toNat * 5 % 65536 := by rw [BitVec.toNat_mul, toNat_byteOperand]; rfl
  rw [hmul, Nat.mod_eq_of_lt (by omega)]

end Sys2Proof.Machine
end

section
/-! The statement about LDA, ADDA and GLYPH (spec/44_index.md). -/

namespace Sys2Proof.Proofs

open Sys2Proof Sys2Proof.Machine

/-- Settles O33: each of the three is one write of `I`; ADDA's sum is taken modulo 65536 and GLYPH's product needs no wrap. -/
theorem addressRegisterResults : Obligations.AddressRegisterResults := by
  intro s nnn x
  have hsum : (s.i + byteOperand (s.getV x)).toNat = (s.i.toNat + (s.getV x).toNat) % 65536 := by
    rw [BitVec.toNat_add, toNat_byteOperand]
  exact ⟨exec_of_setI rfl (toNat_addrOperand nnn), exec_of_setI rfl hsum,
    exec_of_setI rfl (toNat_byteOperand_mul_five (s.getV x))⟩

end Sys2Proof.Proofs
end

section
/-! SUPPORT. The sprite DRW draws, dot by dot, and which pixels drawing changes (spec/45_display.md R102 to R106). -/

namespace Sys2Proof.Machine

/-! ### The sprite at `I` -/

theorem eq_pixelColumn_iff {x0 : Byte} {bit : Nat} {px : Fin 64} :
    px = pixelColumn x0 bit ↔ px.val = (x0.toNat + bit) % 64 := by
  rw [Fin.ext_iff, pixelColumn, Fin.val_ofNat]

theorem eq_pixelRow_iff {y0 : Byte} {row : Nat} {py : Fin 32} :
    py = pixelRow y0 row ↔ py.val = (y0.toNat + row) % 32 := by
  rw [Fin.ext_iff, pixelRow, Fin.val_ofNat]

/-- Bit `bit` of row `row` of the sprite at `I`, on its pixel at the coordinates in VX and VY. -/
def State.spriteDot (s : State) (x y : Reg) (row bit : Nat) : SpriteDot :=
  ⟨pixelColumn (s.getV x) bit, pixelRow (s.getV y) row, spriteBit (s.mem.read (s.base + row)) bit⟩

/-- The dots of the `n` bytes at `I`, in the order DRW draws them. -/
def State.sprite (s : State) (x y : Reg) (n : Nibble) : List SpriteDot :=
  spriteDots (s.getV x) (s.getV y) 0 (s.mem.readBytes s.base n.toNat)

theorem State.mem_sprite {s : State} {x y : Reg} {n : Nibble} {d : SpriteDot} :
    d ∈ s.sprite x y n ↔ ∃ row < n.toNat, ∃ bit < 8, d = s.spriteDot x y row bit := by
  simp only [State.sprite, State.spriteDot, mem_spriteDots, Memory.length_readBytes, Memory.getElem_readBytes, Nat.zero_add,
    exists_prop]

theorem State.spriteDot_mem_sprite (s : State) (x y : Reg) {n : Nibble} {row bit : Nat} (hrow : row < n.toNat)
    (hbit : bit < 8) :
    s.spriteDot x y row bit ∈ s.sprite x y n :=
  State.mem_sprite.2 ⟨row, hrow, bit, hbit, rfl⟩

/-- Some dot of the sprite meets a condition exactly where some bit of some row does. -/
theorem State.exists_mem_sprite {s : State} {x y : Reg} {n : Nibble} {p : SpriteDot → Prop} :
    (∃ d ∈ s.sprite x y n, p d) ↔ ∃ row < n.toNat, ∃ bit < 8, p (s.spriteDot x y row bit) := by
  constructor
  · rintro ⟨d, hd, hp⟩
    obtain ⟨row, hrow, bit, hbit, rfl⟩ := State.mem_sprite.1 hd
    exact ⟨row, hrow, bit, hbit, hp⟩
  · rintro ⟨row, hrow, bit, hbit, hp⟩
    exact ⟨_, s.spriteDot_mem_sprite x y hrow hbit, hp⟩

/-- The at most 15 rows of a sprite touch no pixel twice. -/
theorem State.distinctPixels_sprite (s : State) (x y : Reg) (n : Nibble) : distinctPixels (s.sprite x y n) := by
  have hn : n.toNat < 16 := n.isLt
  exact distinctPixels_spriteDots _ _ _ _ (by rw [Memory.length_readBytes]; omega)

/-- DRW with its bytes in bounds: VF is reset, then the dots are drawn (R102). -/
theorem exec_drw_of_inBounds {s : State} (x y : Reg) {n : Nibble} (h : n.toNat = 0 ∨ s.i.toNat + n.toNat - 1 ≤ 4095) :
    exec (.drw x y n) s = .next ((s.setV vf 0#8).plotAll (s.sprite x y n)) := by
  rcases execDrw_cases x y n s with ⟨-, he⟩ | ⟨hn, hout, -⟩
  · exact he
  · unfold State.base at hout
    omega

/-! ### The pixels drawing changes -/

/-- A pixel changes exactly where a dot that is 1 lands on it (R106). -/
theorem State.plotAll_getPixel_ne_iff {ds : List SpriteDot} (hd : distinctPixels ds) (s : State) (x : Fin 64) (y : Fin 32) :
    (s.plotAll ds).getPixel x y ≠ s.getPixel x y ↔ ∃ d ∈ ds, d.bit = true ∧ x = d.px ∧ y = d.py := by
  constructor
  · intro hne
    by_contra hnone
    refine hne ?_
    by_cases hhit : ∃ d ∈ ds, x = d.px ∧ y = d.py
    · obtain ⟨d, hm, rfl, rfl⟩ := hhit
      have hbit : d.bit = false := Bool.eq_false_iff.2 fun hb => hnone ⟨d, hm, hb, rfl, rfl⟩
      rw [State.plotAll_getPixel hd s hm, hbit, Bool.xor_false]
    · exact State.plotAll_getPixel_untouched ds s x y fun d hm hxy => hhit ⟨d, hm, hxy⟩
  · rintro ⟨d, hm, hbit, rfl, rfl⟩
    rw [State.plotAll_getPixel hd s hm, hbit, Bool.xor_true]
    exact Bool.not_ne_self _

/-- Some pixel changes exactly where some dot is 1 (R106). -/
theorem State.exists_plotAll_getPixel_ne_iff {ds : List SpriteDot} (hd : distinctPixels ds) (s : State) :
    (∃ px py, (s.plotAll ds).getPixel px py ≠ s.getPixel px py) ↔ ∃ d ∈ ds, d.bit = true := by
  simp only [State.plotAll_getPixel_ne_iff hd]
  constructor
  · rintro ⟨-, -, d, hm, hbit, -, -⟩
    exact ⟨d, hm, hbit⟩
  · rintro ⟨d, hm, hbit⟩
    exact ⟨d.px, d.py, d, hm, hbit, rfl, rfl⟩

/-- Some pixel goes from set to unset exactly where some dot is 1 over a set pixel (R105). -/
theorem State.exists_plotAll_unset_iff {ds : List SpriteDot} (hd : distinctPixels ds) (s : State) :
    (∃ px py, s.getPixel px py = true ∧ (s.plotAll ds).getPixel px py = false) ↔
      ∃ d ∈ ds, d.bit = true ∧ s.getPixel d.px d.py = true := by
  constructor
  · rintro ⟨px, py, hold, hnew⟩
    have hne : (s.plotAll ds).getPixel px py ≠ s.getPixel px py := by rw [hold, hnew]; exact Bool.false_ne_true
    obtain ⟨d, hm, hbit, rfl, rfl⟩ := (State.plotAll_getPixel_ne_iff hd s px py).1 hne
    exact ⟨d, hm, hbit, hold⟩
  · rintro ⟨d, hm, hbit, hold⟩
    exact ⟨d.px, d.py, hold, by rw [State.plotAll_getPixel hd s hm, hold, hbit, Bool.xor_self]⟩

/-! ### VF and `REDRAW` -/

/-- From VF = 0, drawing leaves VF at 1 exactly where some dot is 1 over a set pixel (R105). -/
theorem State.plotAll_getV_vf_eq_one_iff {ds : List SpriteDot} (hd : distinctPixels ds) {s : State} (h0 : s.getV vf = 0#8) :
    (s.plotAll ds).getV vf = 1#8 ↔ ∃ d ∈ ds, d.bit = true ∧ s.getPixel d.px d.py = true := by
  rw [State.plotAll_getV_vf hd, h0, ite_eq_left_iff]
  exact ⟨fun h => by_contra fun hnone => absurd (h hnone) (by decide), fun h hnone => absurd h hnone⟩

/-- From VF = 0, drawing leaves VF at 1 or 0 (R15, R105). -/
theorem State.plotAll_getV_vf_one_or_zero {ds : List SpriteDot} (hd : distinctPixels ds) {s : State} (h0 : s.getV vf = 0#8) :
    (s.plotAll ds).getV vf = 1#8 ∨ (s.plotAll ds).getV vf = 0#8 := by
  rw [State.plotAll_getV_vf hd, h0]
  exact ite_eq_or_eq _ _ _

theorem State.plotAll_redraw_iff (ds : List SpriteDot) (s : State) :
    (s.plotAll ds).redraw = true ↔ s.redraw = true ∨ ∃ d ∈ ds, d.bit = true := by
  rw [State.plotAll_redraw, Bool.or_eq_true, List.any_eq_true]

end Sys2Proof.Machine
end

section
/-! The statements about CLS and DRW (spec/45_display.md). -/

namespace Sys2Proof.Proofs

open Sys2Proof Sys2Proof.Machine

/-- Settles O36: every bit of the sprite is one dot, and the dots' pixels are distinct. -/
theorem drwXorsTheSprite : Obligations.DrwXorsTheSprite := by
  intro s x y n hbounds
  obtain ⟨hi, hpc, hstack, hsp, hdt, hst, hkeys, hmem, hfault, -⟩ := (s.setV vf 0#8).plotAll_frame (s.sprite x y n)
  refine ⟨_, exec_drw_of_inBounds x y hbounds, ?drawn, ?untouched, ?registers, hi, hpc, ⟨hstack, hsp⟩, ⟨hdt, hst⟩,
    hkeys, fun a => congrArg (Memory.read · a) hmem, hfault⟩
  case drawn =>
    intro row hrow bit hbit px py hpx hpy
    obtain rfl := eq_pixelColumn_iff.2 hpx
    obtain rfl := eq_pixelRow_iff.2 hpy
    exact State.plotAll_getPixel (s.distinctPixels_sprite x y n) _ (s.spriteDot_mem_sprite x y hrow hbit)
  case untouched =>
    intro px py hmiss
    refine State.plotAll_getPixel_untouched _ _ px py fun d hd hon => ?_
    obtain ⟨row, hrow, bit, hbit, rfl⟩ := State.mem_sprite.1 hd
    exact hmiss row hrow bit hbit ⟨eq_pixelColumn_iff.1 hon.1, eq_pixelRow_iff.1 hon.2⟩
  case registers =>
    intro r hr
    have hvf : r ≠ vf := List.ne_of_not_mem_cons hr
    rw [State.plotAll_getV_other _ _ hvf, s.getV_setV_other hvf]

/-- Settles O37: VF and `REDRAW` by the dots that are 1, which are the pixels that change. -/
theorem drwReportsCollisionAndChange : Obligations.DrwReportsCollisionAndChange := by
  intro s x y n hbounds
  have hdistinct := s.distinctPixels_sprite x y n
  have hzero : (s.setV vf 0#8).getV vf = 0#8 := s.getV_setV_same vf 0#8
  have hvf := State.plotAll_getV_vf_eq_one_iff hdistinct hzero
  have hredraw := (s.setV vf 0#8).plotAll_redraw_iff (s.sprite x y n)
  refine ⟨_, exec_drw_of_inBounds x y hbounds, State.plotAll_getV_vf_one_or_zero hdistinct hzero,
    hvf.trans (State.exists_plotAll_unset_iff hdistinct _).symm, ?collision,
    hredraw.trans (or_congr_right (State.exists_plotAll_getPixel_ne_iff hdistinct _).symm),
    hredraw.trans (or_congr_right State.exists_mem_sprite)⟩
  case collision =>
    rw [hvf, State.exists_mem_sprite]
    simp only [← eq_pixelColumn_iff, ← eq_pixelRow_iff, exists_and_left, exists_eq_left]
    rfl

/-- Settles O35: CLS is one write of the blank display and the redraw flag. -/
theorem clsClearsEveryPixel : Obligations.ClsClearsEveryPixel := fun _ =>
  ⟨_, rfl, Display.getPixel_blank, rfl, fun _ _ => rfl, rfl, rfl, ⟨rfl, rfl⟩, ⟨rfl, rfl⟩, rfl, fun _ => rfl, rfl⟩

end Sys2Proof.Proofs
end

section
/-! SUPPORT. What WKEY can do, and that a set of one key has no other member (spec/46_keys.md R109, R112). -/

namespace Sys2Proof.Machine

/-- What WKEY can do (R112). -/
theorem execWkey_cases (x : Reg) (s : State) :
    (s.keys ≠ 0#16 ∧ execWkey x s = .next (s.setV x (keySel s.keys s.keyChoice)).drawn) ∨
      (s.keys = 0#16 ∧ execWkey x s = .next s.rewind) := by
  by_cases h : s.keys = 0#16
  · exact .inr ⟨h, if_pos h⟩
  · exact .inl ⟨h, if_neg h⟩

/-- The model's count of draws is outside every frame (spec/00_scope.md R7). -/
theorem onlyRegs_drawn {changed : List Reg} {s t : State} (h : onlyRegs changed s t) : onlyRegs changed s t.drawn := h

/-- The set that holds key `k` alone has no other member (R109). -/
theorem eq_of_keys_eq_one_shiftLeft {keys : BitVec 16} {k j : Nat} (hk : keys = 1#16 <<< k)
    (hj : keys.getLsbD j = true) : j = k := by
  subst hk
  simp only [BitVec.getLsbD_shiftLeft, BitVec.getLsbD_one, Bool.and_eq_true, Bool.not_eq_true', decide_eq_true_eq,
    decide_eq_false_iff_not] at hj
  omega

/-- The rewind subtracts 2 from any `PC`, modulo the word size (R112). -/
theorem State.toNat_rewind_pc_mod (s : State) : s.rewind.pc.toNat = (s.pc.toNat + 65534) % 65536 := by
  rw [State.rewind_pc]
  bv_omega

end Sys2Proof.Machine
end

section
/-! The statements about SKP, SKNP and WKEY (spec/46_keys.md). -/

namespace Sys2Proof.Proofs

open Sys2Proof Sys2Proof.Machine

/-- Settles O41, by the two things WKEY can do: the selected key is a member of the set, so it is the only member where there
is one. -/
theorem wkeyTakesAHeldKeyOrRewinds : Obligations.WkeyTakesAHeldKeyOrRewinds := by
  intro s x
  rcases execWkey_cases x s with ⟨hheld, he⟩ | ⟨hnone, he⟩
  · obtain ⟨hle, hbit⟩ := keyHeld_iff.1 (keyHeld_keySel hheld s.keyChoice)
    refine ⟨fun _ => ⟨_, he, ?_⟩, fun hnone => absurd hnone hheld⟩
    rw [State.getV_drawn, State.getV_setV_same]
    exact ⟨hle, hbit, fun k _ hk => eq_of_keys_eq_one_shiftLeft hk hbit, onlyRegs_drawn (s.onlyRegs_setV x _), rfl⟩
  · exact ⟨fun hheld => absurd hnone hheld, fun _ => ⟨_, he, s.toNat_rewind_pc_mod, rfl⟩⟩

/-- Settles O23: each of the two is one skip, on the whole byte's membership or on its negation. -/
theorem keySkips : Obligations.KeySkips := by
  intro s x
  have hnot : (!keyHeld s.keys (s.getV x)) = true ↔
      ¬((s.getV x).toNat ≤ 15 ∧ s.keys.getLsbD (s.getV x).toNat = true) := by
    rw [Bool.not_eq_true', ← Bool.not_eq_true, keyHeld_iff]
  obtain ⟨t, hexec, hframe, hpc⟩ := exec_of_skipIf (i := .sknp x) rfl hnot
  exact ⟨exec_of_skipIf rfl keyHeld_iff, t, hexec, hframe, hpc.trans (by rw [ite_not])⟩

end Sys2Proof.Proofs
end

section
/-! The statement about LDDT, STDT and STST (spec/47_timers.md). -/

namespace Sys2Proof.Proofs

open Sys2Proof Sys2Proof.Machine

/-- Settles O34: LDDT is one register write, STDT one write of `DT` and STST one write of `ST` (R115, R116, R117). -/
theorem timerMoves : Obligations.TimerMoves := fun s x =>
  ⟨exec_of_setV rfl, ⟨_, rfl, s.setDt_dt (s.getV x), rfl⟩, ⟨_, rfl, s.setSt_st (s.getV x), rfl⟩⟩

end Sys2Proof.Proofs
end

section
/-! SUPPORT. What storing a block at `I` and loading a block of registers do, address by address and register by register
(spec/48_memops.md R118, R121). -/

namespace Sys2Proof.Machine

/-- A block write puts its k-th byte at the k-th address (R44). -/
theorem Memory.read_writeBytes_add (m : Memory) (a : Nat) {vs : List Byte} {k : Nat} (h : k < vs.length) :
    (m.writeBytes a vs).read (a + k) = vs[k] := by
  have hin : a ≤ a + k ∧ a + k - a < vs.length := by omega
  rw [Memory.read_writeBytes, dif_pos hin]
  simp only [Nat.add_sub_cancel_left]

/-- What an instruction that stores the block `bs` at `I`, its last byte at `I + n`, does (R118). -/
theorem exec_of_storeAtI {i : Instr} {s : State} {bs : List Byte} {n : Nat} (hlen : bs.length = n + 1)
    (h : exec i s = .next (s.storeAtI bs)) :
    (s.base + n ≤ 4095 → ∃ t, exec i s = .next t ∧
      (∀ (k : Nat) (hk : k < bs.length), t.mem.read (s.base + k) = bs[k]) ∧
      (∀ a, a < s.base ∨ s.base + n < a → t.mem.read a = s.mem.read a) ∧ t = { s with mem := t.mem }) ∧
    (4095 < s.base + n → exec i s = .next { s with fault := some .outOfBoundsMemoryAccess }) := by
  rw [h]
  rcases s.storeAtI_cases bs with ⟨hin, he⟩ | ⟨-, hout, he⟩
  · have hbytes : s.base + bs.length ≤ 4096 := hin.resolve_left (List.ne_nil_of_length_eq_add_one hlen)
    have hfits : s.base + n ≤ 4095 := by omega
    exact ⟨fun _ => ⟨_, congrArg _ he, fun _ hk => s.mem.read_writeBytes_add s.base hk,
      fun _ ha => s.mem.read_writeBytes_outside (by omega), rfl⟩, fun hout => absurd hfits (Nat.not_le.2 hout)⟩
  · exact ⟨fun hfits => absurd hfits (by omega), fun _ => congrArg _ he⟩

/-- Registers loaded from the `n + 1` bytes at `a`: V0 to Vn hold them and those above are as before (R121). -/
theorem State.getV_setRegs_readBytes (s : State) (a : Nat) {n : Nat} (hn : n < 16) (r : Reg) :
    (s.setRegs 0 (s.mem.readBytes a (n + 1))).getV r = if r.val ≤ n then s.mem.read (a + r.val) else s.getV r := by
  rw [State.getV_setRegs _ _ _ (by rw [Memory.length_readBytes]; omega)]
  simp only [Memory.length_readBytes, Memory.getElem_readBytes, Nat.zero_le, true_and, Nat.sub_zero, Nat.lt_succ_iff,
    dite_eq_ite]

/-- Loading registers changes the register file alone. -/
theorem State.setRegs_eq (bs : List Byte) (s : State) (k : Nat) : s.setRegs k bs = { s with v := (s.setRegs k bs).v } := by
  induction bs generalizing s k with
  | nil => rfl
  | cons b bs ih => exact ih (s.setV (Fin.ofNat 16 k) b) (k + 1)

end Sys2Proof.Machine
end

section
/-! The statements about BCD, STM and LDM (spec/48_memops.md). -/

namespace Sys2Proof.Proofs

open Sys2Proof Sys2Proof.Machine

/-- Settles O43: BCD is one store of a three-byte block, its bytes the three digits. -/
theorem bcdStoresThreeDigits : Obligations.BcdStoresThreeDigits := by
  intro s x
  obtain ⟨hfits, hfault⟩ := exec_of_storeAtI (i := .bcd x) (n := 2) (length_bcdDigits (s.getV x)) rfl
  refine ⟨fun hle => ?_, hfault⟩
  obtain ⟨t, hexec, hstored, hother, hframe⟩ := hfits hle
  obtain ⟨hhundreds, hrest⟩ := List.cons.inj (toNat_bcdDigits (s.getV x))
  obtain ⟨htens, hrest⟩ := List.cons.inj hrest
  obtain ⟨hunits, -⟩ := List.cons.inj hrest
  exact ⟨t, hexec, (congrArg BitVec.toNat (hstored 0 (by simp))).trans hhundreds,
    (congrArg BitVec.toNat (hstored 1 (by simp))).trans htens,
    (congrArg BitVec.toNat (hstored 2 (by simp))).trans hunits, hother, hframe⟩

/-- Settles O44: STM is one store of the block of V0 to VX, its r-th byte Vr. -/
theorem stmStoresV0ToVx : Obligations.StmStoresV0ToVx := by
  intro s x
  obtain ⟨hfits, hfault⟩ := exec_of_storeAtI (i := .stm x) (s.length_regsUpTo x) rfl
  refine ⟨fun hle => ?_, hfault⟩
  obtain ⟨t, hexec, hstored, hother, hframe⟩ := hfits hle
  refine ⟨t, hexec, fun r hr => ?_, hother, hframe⟩
  have hk : r.val < (s.regsUpTo x).length := by rw [State.length_regsUpTo]; exact Nat.lt_succ_of_le hr
  rw [hstored r.val hk, State.getElem_regsUpTo, Fin.ofNat_val_eq_self]

/-- Settles O45, by the two things LDM can do: load the whole block of registers, or raise. -/
theorem ldmLoadsV0ToVx : Obligations.LdmLoadsV0ToVx := by
  intro s x
  rcases execLdm_cases x s with ⟨hin, he⟩ | ⟨hout, he⟩
  · exact ⟨fun _ => ⟨_, he, fun r hr => (s.getV_setRegs_readBytes s.base x.isLt r).trans (if_pos hr),
      fun r hr => (s.getV_setRegs_readBytes s.base x.isLt r).trans (if_neg (Nat.not_le.2 hr)), State.setRegs_eq _ s 0⟩,
      fun hout => absurd hin (by omega)⟩
  · exact ⟨fun hle => absurd hle (by omega), fun _ => he⟩

end Sys2Proof.Proofs
end

section
/-! SUPPORT. A word rebuilt from its fields by its family's number, and the refusals of each family
(spec/30_encoding.md R53, R57 to R61). -/

namespace Sys2Proof

/-! ### A word rebuilt from its fields, the family given as a number -/

theorem extract_family_of_fieldF {w : Word} {f : BitVec 4} (h : fieldF w = f.toNat) : w.extractLsb' 12 4 = f :=
  BitVec.eq_of_toNat_eq h

theorem formatA_of_fieldF {w : Word} (f : BitVec 4) (h : fieldF w = f.toNat) : formatA f (fieldNNN w) = w := by
  rw [← extract_family_of_fieldF h, formatA_fields]

theorem formatXI_of_fieldF {w : Word} (f : BitVec 4) {nn : Byte} (h : fieldF w = f.toNat)
    (hnn : (fieldNN w).toNat = nn.toNat) : formatXI f (fieldX w) nn = w := by
  rw [← extract_family_of_fieldF h, ← BitVec.eq_of_toNat_eq hnn, formatXI_fields]

theorem formatXYN_of_fieldF {w : Word} (f : BitVec 4) {n : Nibble} (h : fieldF w = f.toNat)
    (hn : (fieldN w).toNat = n.toNat) : formatXYN f (fieldX w) (fieldY w) n = w := by
  rw [← extract_family_of_fieldF h, ← BitVec.eq_of_toNat_eq hn, formatXYN_fields]

/-! ### Encoding what a family decodes to -/

/-- The instruction is well-formed and `w` is its word. -/
def IsWordOf (w : Word) (i : Instr) : Prop := encode i = w ∧ i.wf = true

/-- SYS is decoded from every word of family 0 but the two that CLS and RET take, so it is well-formed (R57). -/
theorem isWordOf_decodeFamily0 {w : Word} (h : fieldF w = 0) : IsWordOf w (decodeFamily0 w) := by
  have hw : formatA 0x0#4 (fieldNNN w) = w := formatA_of_fieldF 0x0#4 h
  unfold decodeFamily0
  split
  case isTrue hcls => exact ⟨hcls.symm, rfl⟩
  split
  case isTrue hret => exact ⟨hret.symm, rfl⟩
  case isFalse hcls hret =>
    have hne : fieldNNN w ≠ 0x0E0#12 ∧ fieldNNN w ≠ 0x0EE#12 :=
      ⟨fun h0 => hcls (hw.symm.trans (congrArg (formatA 0x0#4) h0)),
        fun h0 => hret (hw.symm.trans (congrArg (formatA 0x0#4) h0))⟩
    exact ⟨hw, by simpa [Instr.wf] using hne⟩

theorem formatA_injective (f : BitVec 4) : Function.Injective (formatA f) :=
  Function.LeftInverse.injective (fieldNNN_formatA f)

/-- A SYS of a well-formed NNN is read back from its word (R57). -/
theorem decodeFamily0_formatA {nnn : Addr} (hcls : nnn ≠ 0x0E0#12) (hret : nnn ≠ 0x0EE#12) :
    decodeFamily0 (formatA 0x0#4 nnn) = .sys nnn := by
  have hnecls : formatA 0x0#4 nnn ≠ 0x00E0#16 := fun h => hcls (formatA_injective 0x0#4 h)
  have hneret : formatA 0x0#4 nnn ≠ 0x00EE#16 := fun h => hret (formatA_injective 0x0#4 h)
  rw [decodeFamily0, if_neg hnecls, if_neg hneret, fieldNNN_formatA]

theorem isWordOf_decodeFamily8 {w : Word} {i : Instr} (h : fieldF w = 8) (hi : decodeFamily8 w = .ok i) :
    IsWordOf w i := by
  unfold decodeFamily8 at hi
  split at hi <;> cases hi <;> exact ⟨formatXYN_of_fieldF 0x8#4 h ‹_›, rfl⟩

theorem isWordOf_decodeFamilyE {w : Word} {i : Instr} (h : fieldF w = 14) (hi : decodeFamilyE w = .ok i) :
    IsWordOf w i := by
  unfold decodeFamilyE at hi
  split at hi <;> cases hi <;> exact ⟨formatXI_of_fieldF 0xE#4 h ‹_›, rfl⟩

theorem isWordOf_decodeFamilyF {w : Word} {i : Instr} (h : fieldF w = 15) (hi : decodeFamilyF w = .ok i) :
    IsWordOf w i := by
  unfold decodeFamilyF at hi
  split at hi <;> cases hi <;> exact ⟨formatXI_of_fieldF 0xF#4 h ‹_›, rfl⟩

/-! ### What each family refuses -/

theorem decodeFamily8_refuses_iff (w : Word) :
    (∃ e, decodeFamily8 w = .error e) ↔ (fieldN w).toNat ∈ [0x8, 0x9, 0xA, 0xB, 0xC, 0xD, 0xF] := by
  have hlt : (fieldN w).toNat < 16 := (fieldN w).isLt
  unfold decodeFamily8
  split
  case h_10 =>
    simp_all only [imp_false, List.mem_cons, List.not_mem_nil, or_false, Except.error.injEq, exists_eq', true_iff]
    omega
  all_goals simp [*]

theorem decodeFamilyE_refuses_iff (w : Word) :
    (∃ e, decodeFamilyE w = .error e) ↔ (fieldNN w).toNat ∉ [0x9E, 0xA1] := by
  unfold decodeFamilyE
  split <;> simp_all

theorem decodeFamilyF_refuses_iff (w : Word) :
    (∃ e, decodeFamilyF w = .error e) ↔
      (fieldNN w).toNat ∉ [0x07, 0x0A, 0x15, 0x18, 0x1E, 0x29, 0x33, 0x55, 0x65] := by
  unfold decodeFamilyF
  split <;> simp_all

/-- Families 5 and 9 are legal with N = 0 alone (R60). -/
theorem unless_fieldN_zero_refuses_iff (w : Word) (i : Instr) (e : Illegal) :
    (∃ e', (if fieldN w = 0#4 then (.ok i : Except Illegal Instr) else .error e) = .error e') ↔
      (fieldN w).toNat ≠ 0 := by
  have h : fieldN w = 0#4 ↔ (fieldN w).toNat = 0 := BitVec.toNat_inj.symm
  by_cases hn : (fieldN w).toNat = 0 <;> simp [h, hn]

/-- The illegal words by their fields (R61). -/
theorem illegalWord_iff_fields (w : Word) :
    Machine.illegalWord w.toNat ↔
      (fieldF w = 0x5 ∧ (fieldN w).toNat ≠ 0) ∨
      (fieldF w = 0x8 ∧ (fieldN w).toNat ∈ [0x8, 0x9, 0xA, 0xB, 0xC, 0xD, 0xF]) ∨
      (fieldF w = 0x9 ∧ (fieldN w).toNat ≠ 0) ∨
      (fieldF w = 0xE ∧ (fieldNN w).toNat ∉ [0x9E, 0xA1]) ∨
      (fieldF w = 0xF ∧ (fieldNN w).toNat ∉ [0x07, 0x0A, 0x15, 0x18, 0x1E, 0x29, 0x33, 0x55, 0x65]) := by
  rw [fieldF_eq, toNat_fieldN, toNat_fieldNN]
  exact Iff.rfl

end Sys2Proof
end

section
/-! The statements about the encoding (spec/30_encoding.md). -/

namespace Sys2Proof.Proofs

open Sys2Proof Sys2Proof.Machine

/-- Settles O1: each format's fields are read back, and a well-formed SYS has neither of the two words CLS and RET take. -/
theorem decodeEncodeRoundTrip : Obligations.DecodeEncodeRoundTrip := by
  intro i hwf
  cases i with
  | cls | ret => rfl
  | sys nnn =>
    obtain ⟨hcls, hret⟩ : nnn ≠ 0x0E0#12 ∧ nnn ≠ 0x0EE#12 := by simpa [Instr.wf] using hwf
    simp [encode, decode, decodeFamily0_formatA hcls hret]
  | jp | call | lda | jpv0 => simp [encode, decode]
  | sei | snei | ldi | addi | rnd => simp [encode, decode]
  | ser | sner | drw => simp [encode, decode]
  | mov | or | and | xor | add | sub | shr | subn | shl => simp [encode, decode, decodeFamily8]
  | skp | sknp => simp [encode, decode, decodeFamilyE]
  | lddt | wkey | stdt | stst | adda | glyph | bcd | stm | ldm => simp [encode, decode, decodeFamilyF]

/-- Settles O2, family by family: each format is rebuilt from the fields read. -/
theorem encodeDecodeRoundTrip : Obligations.EncodeDecodeRoundTrip := by
  intro w i hi
  unfold decode at hi
  split at hi
  case h_1 hF => cases hi; exact isWordOf_decodeFamily0 hF
  case h_2 hF | h_3 hF | h_11 hF | h_12 hF => cases hi; exact ⟨formatA_of_fieldF _ hF, rfl⟩
  case h_4 hF | h_5 hF | h_7 hF | h_8 hF | h_13 hF => cases hi; exact ⟨formatXI_of_fieldF _ hF rfl, rfl⟩
  case h_6 hF | h_10 hF =>
    split at hi <;> cases hi
    case isTrue hN => exact ⟨formatXYN_of_fieldF _ hF (congrArg BitVec.toNat hN), rfl⟩
  case h_14 hF => cases hi; exact ⟨formatXYN_of_fieldF _ hF rfl, rfl⟩
  case h_9 hF => exact isWordOf_decodeFamily8 hF hi
  case h_15 hF => exact isWordOf_decodeFamilyE hF hi
  case h_16 =>
    have hF : fieldF w = 15 := by have := fieldF_lt w; grind
    exact isWordOf_decodeFamilyF hF hi

/-- Settles O4, family by family. -/
theorem illegalWordsExactly : Obligations.IllegalWordsExactly := by
  intro w
  rw [illegalWord_iff_fields]
  unfold decode
  split
  case h_6 hF | h_10 hF => simp [hF, unless_fieldN_zero_refuses_iff]
  case h_9 hF => simp [hF, decodeFamily8_refuses_iff]
  case h_15 hF => simp [hF, decodeFamilyE_refuses_iff]
  case h_16 =>
    have hF : fieldF w = 15 := by have := fieldF_lt w; grind
    simp [hF, decodeFamilyF_refuses_iff]
  all_goals simp [*]

/-- Settles O3: sixteen closed evaluations of the decoder, as E1 to E29 give them. -/
theorem sampleWordsDecode : Obligations.SampleWordsDecode := by
  unfold Obligations.SampleWordsDecode
  decide

end Sys2Proof.Proofs
end

section
/-! SUPPORT. What every instruction raises and, where it raises nothing, which parts of the state it may change
(spec/10_state.md R13 to R28, spec/60_exceptions.md R124, R128). -/

namespace Sys2Proof.Machine

/-- What an instruction raises in the state it executes in: the execute rows of R124's table. -/
def raisedBy (i : Instr) (s : State) : Option ErrorKind :=
  match i with
  | .call _ => if s.sp.val = 16 then some .stackOverflow else none
  | .ret => if s.sp.val = 0 then some .stackUnderflow else none
  | .drw _ _ n => if n.toNat ≠ 0 ∧ 4096 < s.base + n.toNat then some .outOfBoundsMemoryAccess else none
  | .bcd _ => if 4096 < s.base + 3 then some .outOfBoundsMemoryAccess else none
  | .stm x | .ldm x => if 4096 < s.base + (x.val + 1) then some .outOfBoundsMemoryAccess else none
  | _ => none

/-- `t` differs from `s` only in the parts of the state that the instruction has for its own when it completes. -/
def changesItsOwn (i : Instr) (s t : State) : Prop :=
  match i with
  | .cls => t = { s with fb := t.fb, redraw := true }
  | .drw _ _ _ => t = { s with v := t.v, fb := t.fb, redraw := s.redraw || t.redraw }
  | .call _ | .ret => t = { s with stack := t.stack, sp := t.sp, pc := t.pc }
  | .lda _ | .adda _ | .glyph _ => t = { s with i := t.i }
  | .stdt _ => t = { s with dt := t.dt }
  | .stst _ => t = { s with st := t.st }
  | .bcd _ | .stm _ => t = { s with mem := t.mem }
  | .sys _ | .jp _ | .jpv0 _ | .sei _ _ | .snei _ _ | .ser _ _ | .sner _ _ | .skp _ | .sknp _ => t = { s with pc := t.pc }
  | .wkey _ => t = { s with v := t.v, pc := t.pc, draws := t.draws }
  | .rnd _ _ => t = { s with v := t.v, draws := t.draws }
  | _ => t = { s with v := t.v }

/-- The `PC` plays no part in what an instruction raises. -/
@[simp] theorem raisedBy_setPc (i : Instr) (s : State) (p : Word) : raisedBy i (s.setPc p) = raisedBy i s := by
  cases i <;> rfl

/-- A skip changes `PC` alone. -/
theorem State.skipIf_eq (s : State) (c : Bool) : s.skipIf c = { s with pc := (s.skipIf c).pc } := by
  cases c <;> rfl

/-- Drawing changes VF, the display and `REDRAW`, which it never clears. -/
theorem State.plotAll_eq (s : State) (ds : List SpriteDot) :
    s.plotAll ds =
      { s with v := (s.plotAll ds).v, fb := (s.plotAll ds).fb, redraw := s.redraw || (s.plotAll ds).redraw } := by
  obtain ⟨hi, hpc, hstack, hsp, hdt, hst, hkeys, hmem, hfault, hdraws⟩ := s.plotAll_frame ds
  have hredraw : (s.redraw || (s.plotAll ds).redraw) = (s.plotAll ds).redraw := by
    rw [s.plotAll_redraw ds, ← Bool.or_assoc, Bool.or_self]
  rw [hredraw, ← hi, ← hpc, ← hstack, ← hsp, ← hdt, ← hst, ← hkeys, ← hmem, ← hfault, ← hdraws]

/-- What a store at `I` of at least one byte raises or changes (spec/48_memops.md R118). -/
theorem State.storeAtI_raisedOrChanges (s : State) {bs : List Byte} {n : Nat} (hlen : bs.length = n + 1) :
    (4096 < s.base + (n + 1) ∧ s.storeAtI bs = s.raise .outOfBoundsMemoryAccess) ∨
      (¬4096 < s.base + (n + 1) ∧ s.storeAtI bs = { s with mem := (s.storeAtI bs).mem }) := by
  rcases s.storeAtI_cases bs with ⟨hin, he⟩ | ⟨-, hout, he⟩ <;> rw [he]
  · have hbytes := hin.resolve_left (List.ne_nil_of_length_eq_add_one hlen)
    exact .inr ⟨by omega, rfl⟩
  · exact .inl ⟨by omega, rfl⟩

/-- What an instruction can do: raise its error and change nothing but `FAULT` (R128), or raise nothing and change no more
than its own parts of the state. -/
theorem exec_cases {i : Instr} {s t : State} (h : exec i s = .next t) :
    (∃ k, raisedBy i s = some k ∧ t = s.raise k) ∨ (raisedBy i s = none ∧ changesItsOwn i s t) := by
  cases i with
  | cls | sys | jp | jpv0 | ldi | addi | mov | or | and | xor | add | sub | shr | subn | shl | lda | rnd | lddt | stdt
  | stst | adda | glyph =>
    obtain rfl := Host.Outcome.next.inj h
    exact .inr ⟨rfl, rfl⟩
  | sei | snei | ser | sner | skp | sknp =>
    obtain rfl := Host.Outcome.next.inj h
    exact .inr ⟨rfl, s.skipIf_eq _⟩
  | wkey x =>
    rcases execWkey_cases x s with ⟨-, he⟩ | ⟨-, he⟩ <;> obtain rfl := Host.Outcome.next.inj (he.symm.trans h) <;>
      exact .inr ⟨rfl, rfl⟩
  | call nnn =>
    rcases execCall_cases nnn s with ⟨hroom, he⟩ | ⟨hfull, he⟩ <;>
      obtain rfl := Host.Outcome.next.inj (he.symm.trans h)
    · exact .inr ⟨if_neg hroom.ne, rfl⟩
    · exact .inl ⟨_, if_pos hfull, rfl⟩
  | ret =>
    rcases execRet_cases s with ⟨hpos, he⟩ | ⟨hempty, he⟩ <;>
      obtain rfl := Host.Outcome.next.inj (he.symm.trans h)
    · exact .inr ⟨if_neg hpos.ne', rfl⟩
    · exact .inl ⟨_, if_pos hempty, rfl⟩
  | drw x y n =>
    rcases execDrw_cases x y n s with ⟨hin, he⟩ | ⟨hn, hout, he⟩ <;>
      obtain rfl := Host.Outcome.next.inj (he.symm.trans h)
    · exact .inr ⟨if_neg (by omega), State.plotAll_eq _ _⟩
    · exact .inl ⟨_, if_pos ⟨hn, hout⟩, rfl⟩
  | bcd x =>
    obtain rfl := Host.Outcome.next.inj h
    rcases s.storeAtI_raisedOrChanges (length_bcdDigits (s.getV x)) with ⟨hout, he⟩ | ⟨hin, he⟩
    · exact .inl ⟨_, if_pos hout, he⟩
    · exact .inr ⟨if_neg hin, he⟩
  | stm x =>
    obtain rfl := Host.Outcome.next.inj h
    rcases s.storeAtI_raisedOrChanges (s.length_regsUpTo x) with ⟨hout, he⟩ | ⟨hin, he⟩
    · exact .inl ⟨_, if_pos hout, he⟩
    · exact .inr ⟨if_neg hin, he⟩
  | ldm x =>
    rcases execLdm_cases x s with ⟨hin, he⟩ | ⟨hout, he⟩ <;>
      obtain rfl := Host.Outcome.next.inj (he.symm.trans h)
    · exact .inr ⟨if_neg (Nat.not_lt.2 hin), State.setRegs_eq _ s 0⟩
    · exact .inl ⟨_, if_pos hout, rfl⟩

/-- Every instruction has a next state from every state (spec/70_reset_and_hazards.md R165). -/
theorem exists_exec_eq_next (i : Instr) (s : State) : ∃ t, exec i s = .next t := by
  cases i with
  | wkey x => rcases execWkey_cases x s with ⟨-, he⟩ | ⟨-, he⟩ <;> exact ⟨_, he⟩
  | call nnn => rcases execCall_cases nnn s with ⟨_, he⟩ | ⟨-, he⟩ <;> exact ⟨_, he⟩
  | ret => rcases execRet_cases s with ⟨_, he⟩ | ⟨-, he⟩ <;> exact ⟨_, he⟩
  | drw x y n => rcases execDrw_cases x y n s with ⟨-, he⟩ | ⟨-, -, he⟩ <;> exact ⟨_, he⟩
  | ldm x => rcases execLdm_cases x s with ⟨-, he⟩ | ⟨-, he⟩ <;> exact ⟨_, he⟩
  | _ => exact ⟨_, rfl⟩

/-- A register that R16's table does not give an instruction keeps its value. -/
theorem exec_getV_of_not_writesReg {i : Instr} {s t : State} {r : Reg} (h : exec i s = .next t) (hr : ¬writesReg i r) :
    t.getV r = s.getV r := by
  cases i with
  | ldi | addi | rnd | lddt | mov | or | and | xor =>
    obtain rfl := Host.Outcome.next.inj h
    exact s.getV_setV_other hr _
  | add | sub | shr | subn | shl =>
    obtain rfl := Host.Outcome.next.inj h
    obtain ⟨hx, hvf⟩ := not_or.1 hr
    rw [State.getV_setFlagAndResult, if_neg hx, if_neg hvf]
  | wkey x =>
    rcases execWkey_cases x s with ⟨-, he⟩ | ⟨-, he⟩ <;> obtain rfl := Host.Outcome.next.inj (he.symm.trans h)
    · exact s.getV_setV_other hr _
    · rfl
  | drw x y n =>
    rcases execDrw_cases x y n s with ⟨-, he⟩ | ⟨-, -, he⟩ <;>
      obtain rfl := Host.Outcome.next.inj (he.symm.trans h)
    · rw [State.plotAll_getV_other _ _ hr, s.getV_setV_other hr]
    · rfl
  | ldm x =>
    rcases execLdm_cases x s with ⟨-, he⟩ | ⟨-, he⟩ <;> obtain rfl := Host.Outcome.next.inj (he.symm.trans h)
    · exact (s.getV_setRegs_readBytes s.base x.isLt r).trans (if_neg hr)
    · rfl
  | _ =>
    rcases exec_cases h with ⟨k, -, rfl⟩ | ⟨-, hown⟩
    · rfl
    · exact State.getV_congr (congrArg State.v hown) r

end Sys2Proof.Machine
end

section
/-! The statements about who may change what (spec/10_state.md sections 2 to 8). -/

namespace Sys2Proof.Proofs

open Sys2Proof Sys2Proof.Machine

/-- Settles O49: an instruction that raises changes `FAULT` alone, and one that completes changes its own parts alone. -/
theorem eachStateHasItsWriters : Obligations.EachStateHasItsWriters := by
  intro i s t h
  rcases exec_cases h with ⟨k, -, rfl⟩ | ⟨-, hown⟩
  · simp [sameStack, sameDisplay, sameMemory]
  · cases i
    all_goals
      rw [hown]
      simp +contextual [sameStack, sameDisplay, sameMemory]

/-- Settles O48, read the other way round: a register the table does not give keeps its value. -/
theorem registersWrittenAreTheTables : Obligations.RegistersWrittenAreTheTables := fun _ _ _ _ h hne =>
  by_contra fun hr => hne (exec_getV_of_not_writesReg h hr)

end Sys2Proof.Proofs
end

section
/-! SUPPORT. The step of a live core by the word at `PC`, and what the fetch and the word make it raise (spec/30_encoding.md
R64, spec/60_exceptions.md R124 to R128). -/

namespace Sys2Proof.Machine

/-- What a live core's step can do, by the word at `PC` (R64). -/
theorem step_cases_of_live {s : State} (hlive : s.live) :
    (0x0FFE < s.pc.toNat ∧ step s = .next (s.raise .outOfBoundsMemoryAccess)) ∨
    (s.fetchable ∧ ∃ e, decode s.nextWord = .error e ∧
      step s = .next ((s.setPc (s.pc + 2#16)).raise .unknownOpcode)) ∨
    (s.fetchable ∧ ∃ i, decode s.nextWord = .ok i ∧ step s = exec i (s.setPc (s.pc + 2#16))) := by
  rcases step_cases s with ⟨⟨k, hk⟩, -⟩ | ⟨-, hout, hs⟩ | ⟨-, hin, e, he, hs⟩ | ⟨-, hin, i, hi, hs⟩
  · exact absurd (hk.symm.trans hlive) (Option.some_ne_none k)
  · exact .inl ⟨hout, hs⟩
  · exact .inr (.inl ⟨hin, e, he, hs⟩)
  · exact .inr (.inr ⟨hin, i, hi, hs⟩)

/-- A dead core's step changes nothing (R127). -/
theorem step_of_dead {s : State} (hdead : ¬s.live) : step s = .next s := by
  rcases step_cases s with ⟨-, hs⟩ | ⟨hlive, -⟩ | ⟨hlive, -⟩ | ⟨hlive, -⟩
  · exact hs
  all_goals exact absurd hlive hdead

/-- Where the word at `PC` is an instruction's, the step is that instruction (R64). -/
theorem step_of_decode {s : State} {i : Instr} (hlive : s.live) (hfetch : s.fetchable) (hi : decode s.nextWord = .ok i) :
    step s = exec i (s.setPc (s.pc + 2#16)) := by
  rcases step_cases_of_live hlive with ⟨hout, -⟩ | ⟨-, e, he, -⟩ | ⟨-, j, hj, hs⟩
  · exact absurd hfetch (Nat.not_le.2 hout)
  · exact absurd (he.symm.trans hi) (by simp)
  · obtain rfl : j = i := Except.ok.inj (hj.symm.trans hi)
    exact hs

/-- Where the word at `PC` is illegal, the step is that error, raised on the state the fetch left (R64). -/
theorem step_of_illegal {s : State} {e : Illegal} (hlive : s.live) (hfetch : s.fetchable)
    (he : decode s.nextWord = .error e) : step s = .next ((s.setPc (s.pc + 2#16)).raise .unknownOpcode) := by
  rcases step_cases_of_live hlive with ⟨hout, -⟩ | ⟨-, _, -, hs⟩ | ⟨-, j, hj, -⟩
  · exact absurd hfetch (Nat.not_le.2 hout)
  · exact hs
  · exact absurd (hj.symm.trans he) (by simp)

/-- The `PC` the fetch leaves is two further on, without a wrap (spec/10_state.md R20). -/
theorem State.fetchable.toNat_advanced {s : State} (h : s.fetchable) : (s.setPc (s.pc + 2#16)).pc.toNat = s.pc.toNat + 2 :=
  toNat_add_two (by omega)

/-- What holds of the state itself, of each error a step can raise and of what the instruction at `PC` leaves holds after
the step. -/
theorem step_elim {s t : State} {P : State → Prop} (h : step s = .next t) (hidle : P s)
    (hfetchFault : P (s.raise .outOfBoundsMemoryAccess))
    (hdecodeFault : s.fetchable → P ((s.setPc (s.pc + 2#16)).raise .unknownOpcode))
    (hexec : ∀ i u, s.fetchable → decode s.nextWord = .ok i → exec i (s.setPc (s.pc + 2#16)) = .next u → P u) : P t := by
  by_cases hlive : s.live
  · rcases step_cases_of_live hlive with ⟨-, hs⟩ | ⟨hfetch, e, -, hs⟩ | ⟨hfetch, i, hi, hs⟩
    · rwa [← Host.Outcome.next.inj (hs.symm.trans h)]
    · rw [← Host.Outcome.next.inj (hs.symm.trans h)]
      exact hdecodeFault hfetch
    · exact hexec i t hfetch hi (hs.symm.trans h)
  · rwa [← Host.Outcome.next.inj ((step_of_dead hlive).symm.trans h)]

/-! ### The `Step` rows of R124's table -/

theorem raises_iff_of_pc_gt {s : State} (h : 0x0FFE < s.pc.toNat) (k : ErrorKind) :
    raises s k ↔ k = .outOfBoundsMemoryAccess := by
  have hout : ¬s.fetchable := Nat.not_le.2 h
  cases k <;> simp [raises, hout, h]

theorem raises_iff_of_illegal {s : State} {e : Illegal} (hfetch : s.fetchable) (he : decode s.nextWord = .error e)
    (k : ErrorKind) : raises s k ↔ k = .unknownOpcode := by
  have hin : ¬0x0FFE < s.pc.toNat := Nat.not_lt.2 hfetch
  cases k <;> simp [raises, hfetch, hin, he]

/-- Where the word at `PC` is an instruction's, the table's rows for the step are the instruction's own. -/
theorem raises_iff_raisedBy {s : State} {i : Instr} (hfetch : s.fetchable) (hi : decode s.nextWord = .ok i)
    (k : ErrorKind) : raises s k ↔ raisedBy i s = some k := by
  have hin : ¬0x0FFE < s.pc.toNat := Nat.not_lt.2 hfetch
  have hbase : s.i.toNat = s.base := rfl
  cases i with
  | drw | bcd | stm | ldm =>
    cases k <;> simp [raises, raisedBy, hfetch, hin, hi, hbase]
    omega
  | _ => cases k <;> simp [raises, raisedBy, hfetch, hin, hi]

/-- An instruction that completes leaves `FAULT` alone. -/
theorem changesItsOwn.fault_eq {i : Instr} {s t : State} (h : changesItsOwn i s t) : t.fault = s.fault := by
  cases i <;> exact (congrArg State.fault h :)

/-- An instruction executed by a live core ends with `FAULT` = k exactly where it raises k. -/
theorem exec_fault_eq_some_iff {i : Instr} {s t : State} (hlive : s.live) (h : exec i s = .next t) (k : ErrorKind) :
    t.fault = some k ↔ raisedBy i s = some k := by
  rcases exec_cases h with ⟨k', hk', rfl⟩ | ⟨hnone, hown⟩
  · rw [hk', State.raise_fault]
  · rw [hown.fault_eq, hlive, hnone]

end Sys2Proof.Machine
end

section
/-! The statements about the step cycle and its faults (spec/30_encoding.md section 5, spec/60_exceptions.md section 1). -/

namespace Sys2Proof.Proofs

open Sys2Proof Sys2Proof.Machine

/-- Settles O5: the third of the three things a live core's step can do. -/
theorem stepRunsDecodedInstruction : Obligations.StepRunsDecodedInstruction := fun _ _ hlive hfetch hi =>
  ⟨step_of_decode hlive hfetch hi, hfetch.toNat_advanced⟩

/-- Settles O7, by the three things a live core's step can do: each has its own rows of the table. -/
theorem stepRaisesExactly : Obligations.StepRaisesExactly := by
  intro s t k hlive hstep
  rcases step_cases_of_live hlive with ⟨hout, hs⟩ | ⟨hfetch, e, he, hs⟩ | ⟨hfetch, i, hi, hs⟩
  · obtain rfl := Host.Outcome.next.inj (hs.symm.trans hstep)
    rw [raises_iff_of_pc_gt hout, State.raise_fault, Option.some_inj, eq_comm]
  · obtain rfl := Host.Outcome.next.inj (hs.symm.trans hstep)
    rw [raises_iff_of_illegal hfetch he, State.raise_fault, Option.some_inj, eq_comm]
  · have hlive' : (s.setPc (s.pc + 2#16)).live := hlive
    rw [raises_iff_raisedBy hfetch hi, exec_fault_eq_some_iff hlive' (hs.symm.trans hstep), raisedBy_setPc]

/-- Settles O8: an error is raised on the state the fetch found or left, and a too large `Load` on the state it found. -/
theorem faultsArePrecise : Obligations.FaultsArePrecise := by
  constructor
  · intro s t hlive hstep hdead
    rcases step_cases_of_live hlive with ⟨hout, hs⟩ | ⟨hfetch, e, -, hs⟩ | ⟨hfetch, i, -, hs⟩
    · obtain rfl := Host.Outcome.next.inj (hs.symm.trans hstep)
      exact ⟨rfl, (if_pos hout).symm⟩
    · obtain rfl := Host.Outcome.next.inj (hs.symm.trans hstep)
      exact ⟨rfl, hfetch.toNat_advanced.trans (if_neg (Nat.not_lt.2 hfetch)).symm⟩
    · rcases exec_cases (hs.symm.trans hstep) with ⟨k, -, rfl⟩ | ⟨-, hown⟩
      · exact ⟨rfl, hfetch.toNat_advanced.trans (if_neg (Nat.not_lt.2 hfetch)).symm⟩
      · exact absurd (hown.fault_eq.trans hlive) hdead
  · intro s t bytes hlive hload hdead
    obtain rfl := Host.Outcome.next.inj hload
    rcases hostLoad_cases bytes s with ⟨⟨k, hk⟩, -⟩ | ⟨-, -, he⟩ | ⟨-, -, he⟩
    · exact absurd (hk.symm.trans hlive) (Option.some_ne_none k)
    · rw [he]
      exact rfl
    · rw [he] at hdead
      exact absurd hlive hdead

end Sys2Proof.Proofs
end

section
/-! SUPPORT. The host's operations on a dead core, and sequences of operations (spec/60_exceptions.md R127, R134, R145). -/

namespace Sys2Proof.Machine

/-- A dead core ignores every operation but `Reset` (R127). -/
theorem perform_of_dead {s : State} {o : HostOp} (hdead : ¬s.live) (ho : o ≠ .reset) : perform o s = .next s := by
  have hignored (op : State → State) : s.ifLive op = s := by
    rcases s.ifLive_cases op with ⟨hlive, -⟩ | ⟨-, he⟩
    · exact absurd hlive hdead
    · exact he
  cases o with
  | reset => exact absurd rfl ho
  | step => exact step_of_dead hdead
  | load | tickTimers | setKey | clearRedraw => exact congrArg _ (hignored _)

/-- `KEYS` is as it was, and the timers are but for the STDT or STST at `PC`: what a step owes the host (R132). -/
def hostInputsKept (s t : State) : Prop :=
  t.keys = s.keys ∧ (t.dt ≠ s.dt → ∃ x, decode s.nextWord = .ok (.stdt x)) ∧
    (t.st ≠ s.st → ∃ x, decode s.nextWord = .ok (.stst x))

theorem performAll_cons_of_next {o : HostOp} {os : List HostOp} {s t : State} (h : perform o s = .next t) :
    performAll (o :: os) s = performAll os t := by
  rw [performAll, h]

theorem performAll_append_of_next {os os' : List HostOp} {s t : State} (h : performAll os s = .next t) :
    performAll (os ++ os') s = performAll os' t := by
  induction os generalizing s with
  | nil => rw [← Host.Outcome.next.inj h, List.nil_append]
  | cons o os ih =>
    rw [List.cons_append]
    rw [performAll] at h ⊢
    cases hp : perform o s <;> rw [hp] at h
    case next u => exact ih h
    all_goals cases h

/-- Operations that each leave the state as it is leave it so in any sequence. -/
theorem performAll_of_forall_fixed {os : List HostOp} {s : State} (h : ∀ o ∈ os, perform o s = .next s) :
    performAll os s = .next s := by
  induction os with
  | nil => rfl
  | cons o os ih =>
    obtain ⟨ho, hos⟩ := List.forall_mem_cons.1 h
    rw [performAll_cons_of_next ho, ih hos]

/-- What every operation keeps, every sequence of operations keeps. -/
theorem performAll_keeps {P : State → Prop} (hkeeps : ∀ o s t, P s → perform o s = .next t → P t)
    {os : List HostOp} {s t : State} (hs : P s) (h : performAll os s = .next t) : P t := by
  induction os generalizing s with
  | nil => rwa [← Host.Outcome.next.inj h]
  | cons o os ih =>
    rw [performAll] at h
    cases hp : perform o s <;> rw [hp] at h
    case next u => exact ih (hkeeps o s u hs hp) h
    all_goals cases h

/-- Every step has a next state (spec/70_reset_and_hazards.md R165). -/
theorem exists_step_eq_next (s : State) : ∃ t, step s = .next t := by
  rcases step_cases s with ⟨-, hs⟩ | ⟨-, -, hs⟩ | ⟨-, -, e, -, hs⟩ | ⟨-, -, i, -, hs⟩ <;> rw [hs]
  case inr.inr.inr => exact exists_exec_eq_next i _
  all_goals exact ⟨_, rfl⟩

theorem exists_perform_eq_next (o : HostOp) (s : State) : ∃ t, perform o s = .next t := by
  cases o with
  | step => exact exists_step_eq_next s
  | _ => exact ⟨_, rfl⟩

theorem exists_performAll_eq_next (os : List HostOp) (s : State) : ∃ t, performAll os s = .next t := by
  induction os generalizing s with
  | nil => exact ⟨s, rfl⟩
  | cons o os ih =>
    obtain ⟨t, ht⟩ := exists_perform_eq_next o s
    rw [performAll_cons_of_next ht]
    exact ih t

end Sys2Proof.Machine
end

section
/-! The statements about dead cores, about what steps and host operations may change, and that none is ever stuck
(spec/60_exceptions.md sections 1, 2 and 4, spec/70_reset_and_hazards.md section 4). -/

namespace Sys2Proof.Proofs

open Sys2Proof Sys2Proof.Machine

/-- Settles O13, by what each instruction and each operation can do. -/
theorem coreIsNeverStuck : Obligations.CoreIsNeverStuck := ⟨exists_exec_eq_next, exists_performAll_eq_next⟩

/-- Settles O14: each operation but `Reset` leaves a dead core as it is. -/
theorem deadCoreObeysOnlyReset : Obligations.DeadCoreObeysOnlyReset := by
  intro s k hk
  have hdead : ¬s.live := fun hlive => Option.some_ne_none k (hk.symm.trans hlive)
  exact ⟨fun ops hreset => performAll_of_forall_fixed fun o ho => perform_of_dead hdead (ne_of_mem_of_not_mem ho hreset),
    hostReset s, rfl, rfl⟩

/-- Settles O50: an operation of the host is ignored or writes its own part, and a step changes what its instruction
may (R137). -/
theorem hostOperationsKeepTheirDistance : Obligations.HostOperationsKeepTheirDistance := by
  constructor
  · intro o s t hreset hstep h
    by_cases hlive : s.live
    · cases o with
      | reset => exact absurd rfl hreset
      | step => exact absurd rfl hstep
      | load bytes =>
        rcases hostLoad_cases bytes s with ⟨-, he⟩ | ⟨-, -, he⟩ | ⟨-, -, he⟩ <;>
          obtain rfl := (Host.Outcome.next.inj h).symm.trans he <;> exact ⟨rfl, rfl, rfl, ⟨rfl, rfl⟩, rfl⟩
      | tickTimers | setKey | clearRedraw =>
        obtain rfl := (Host.Outcome.next.inj h).symm.trans (State.ifLive_of_live hlive _)
        exact ⟨rfl, rfl, rfl, ⟨rfl, rfl⟩, rfl⟩
    · obtain rfl := Host.Outcome.next.inj ((perform_of_dead hlive hreset).symm.trans h)
      exact ⟨rfl, rfl, rfl, ⟨rfl, rfl⟩, rfl⟩
  · intro s t h
    refine step_elim (P := hostInputsKept s) h ⟨rfl, absurd rfl, absurd rfl⟩ ⟨rfl, absurd rfl, absurd rfl⟩
      (fun _ => ⟨rfl, absurd rfl, absurd rfl⟩) fun i u _ hi hexec => ?_
    obtain ⟨-, -, hdt, hst, -, -, -, hkeys⟩ := eachStateHasItsWriters i _ _ hexec
    refine ⟨hkeys, fun hne => ?_, fun hne => ?_⟩
    · obtain ⟨x, rfl⟩ := hdt hne
      exact ⟨x, hi⟩
    · obtain ⟨x, rfl⟩ := hst hne
      exact ⟨x, hi⟩

end Sys2Proof.Proofs
end

section
/-! The statements about the host's operations other than `Step` and `Reset` (spec/60_exceptions.md section 4). -/

namespace Sys2Proof.Proofs

open Sys2Proof Sys2Proof.Machine

/-- Settles O53, by induction on the number of ticks: each counts both timers down by one and stops at 0. -/
theorem tickTimersCountsDownToZero : Obligations.TickTimersCountsDownToZero := by
  intro s n
  refine ⟨fun hlive => ?_, fun hdead => performAll_of_forall_fixed fun o ho => ?_⟩
  · induction n generalizing s with
    | zero => exact ⟨s, rfl, rfl, rfl, rfl⟩
    | succ n ih =>
      obtain ⟨t, hrun, hdt, hst, hframe⟩ := ih ((s.setDt (countDown s.dt)).setSt (countDown s.st)) hlive
      have htick : perform .tickTimers s = .next ((s.setDt (countDown s.dt)).setSt (countDown s.st)) :=
        congrArg _ (State.ifLive_of_live hlive _)
      simp only [State.setSt_dt, State.setDt_dt, State.setSt_st, toNat_countDown, Nat.sub_sub, Nat.add_comm 1 n] at hdt hst
      exact ⟨t, (performAll_cons_of_next htick).trans hrun, hdt, hst, hframe⟩
  · obtain rfl := List.eq_of_mem_replicate ho
    exact perform_of_dead hdead (by simp)

/-- Settles O54: on a live core the call writes `KEYS`, one bit of it changed. -/
theorem setKeyChangesOneKey : Obligations.SetKeyChangesOneKey := fun s k pressed =>
  ⟨fun hlive => ⟨_, congrArg Host.Outcome.next (State.ifLive_of_live hlive _),
      fun j => getLsbD_keysWith s.keys k j pressed, rfl⟩,
    fun hdead => perform_of_dead hdead (by simp)⟩

/-- Settles O55: on a live core the call writes `REDRAW`; a step changes it as its instruction may, which is never to 0. -/
theorem clearRedrawOnlyClearsTheFlag : Obligations.ClearRedrawOnlyClearsTheFlag := by
  refine ⟨fun s hlive => congrArg _ (State.ifLive_of_live hlive _), fun s hdead => perform_of_dead hdead (by simp), ?_⟩
  intro s t hset hstep
  refine step_elim (P := fun t => t.redraw = true) hstep hset hset (fun _ => hset) fun i u _ _ hexec => ?_
  obtain ⟨-, -, -, -, -, hredraw, -⟩ := eachStateHasItsWriters i _ _ hexec
  exact hredraw hset

/-- Settles O56, by the three things `Load` can do. -/
theorem loadCopiesTheImage : Obligations.LoadCopiesTheImage := by
  intro s bytes
  refine ⟨fun hlive hfits => ?_, fun hlive hlarge => ?_, fun hdead => perform_of_dead hdead (by simp)⟩
  · rcases hostLoad_cases bytes s with ⟨⟨k, hk⟩, -⟩ | ⟨-, hlarge, -⟩ | ⟨-, -, he⟩
    · exact absurd (hk.symm.trans hlive) (Option.some_ne_none k)
    · exact absurd hfits (Nat.not_le.2 hlarge)
    · exact ⟨_, congrArg Host.Outcome.next he, fun j hj => s.mem.read_writeBytes_add 0x200 hj,
        fun a ha => s.mem.read_writeBytes_outside ha, rfl⟩
  · rcases hostLoad_cases bytes s with ⟨⟨k, hk⟩, -⟩ | ⟨-, -, he⟩ | ⟨-, hfits, -⟩
    · exact absurd (hk.symm.trans hlive) (Option.some_ne_none k)
    · exact congrArg _ he
    · exact absurd hfits (Nat.not_le.2 hlarge)

end Sys2Proof.Proofs
end

section
/-! SUPPORT. The invariant across instructions (spec/10_state.md R20, R21, spec/20_memory.md R35). -/

namespace Sys2Proof.Machine

/-- Raising an error keeps the invariant, which does not speak of `FAULT`. -/
theorem State.Inv.raise {s : State} (hs : s.Inv) (k : ErrorKind) : (s.raise k).Inv := ⟨hs.memory, hs.pc, hs.stack⟩

theorem State.Inv.setPc {s : State} (hs : s.Inv) {p : Word} (hp : p.toNat ≤ 0x10FE) : (s.setPc p).Inv :=
  ⟨hs.memory, hp, hs.stack⟩

/-- The newest entry of a non-empty stack is the address after a CALL (R21). -/
theorem State.Inv.toNat_top_le {s : State} (hs : s.Inv) (hpos : 0 < s.sp.val) : s.top.toNat ≤ 0x1000 := by
  rw [s.top_of_pos hpos]
  exact (hs.stack ⟨s.sp.val - 1, by omega⟩ (Nat.sub_lt hpos Nat.one_pos)).2

/-- The bound on `PC` by the table of R19: JPV0 alone reaches 0x10FE (R20). -/
theorem pcAfter_le {a : Nat} {i : Instr} {s : State} (ha : a ≤ 0x0FFE) (htop : i = .ret → s.top.toNat ≤ 0x1000) :
    pcAfter a i s ≤ 0x10FE := by
  cases i with
  | ret => exact (htop rfl).trans (by decide)
  | jp nnn | call nnn => exact nnn.isLt.le.trans (by decide)
  | jpv0 nnn =>
    have hbyte : (s.getV 0).toNat < 256 := (s.getV 0).isLt
    exact (Nat.add_le_add (Nat.le_of_lt_succ nnn.isLt) (Nat.le_of_lt_succ hbyte)).trans (by decide)
  | sei | snei | ser | sner | skp | sknp | wkey =>
    dsimp only [pcAfter]
    split <;> omega
  | _ => exact (Nat.add_le_add_right ha 2).trans (by decide)

/-- A block store at `I` keeps memory's canonical form. -/
theorem State.storeAtI_mem_wf {s : State} (bs : List Byte) (hs : s.mem.wf = true) : (s.storeAtI bs).mem.wf = true := by
  unfold State.storeAtI
  split
  case h_1 m hm => exact Memory.store_wf hm hs
  case h_2 => exact hs

theorem exec_keeps_mem_wf {i : Instr} {s t : State} (h : exec i s = .next t) (hs : s.mem.wf = true) : t.mem.wf = true := by
  cases i with
  | bcd | stm =>
    obtain rfl := Host.Outcome.next.inj h
    exact State.storeAtI_mem_wf _ hs
  | _ =>
    rcases exec_cases h with ⟨k, -, rfl⟩ | ⟨-, hown⟩
    · exact hs
    · rwa [(congrArg State.mem hown :)]

/-- The addresses a CALL can push: those two above a fetchable one (R21). -/
def isReturnAddress (a : Word) : Prop := 2 ≤ a.toNat ∧ a.toNat ≤ 0x1000

/-- The invariant's part about the stack: every valid entry is the address after a CALL (R21). -/
def State.validStack (s : State) : Prop := ∀ k : Fin 16, k.val < s.sp.val → isReturnAddress (s.stackAt k)

/-- CALL pushes the advanced `PC`, RET uncovers no entry, and no other instruction touches the stack (R22). -/
theorem exec_keeps_validStack {i : Instr} {s t : State} (h : exec i s = .next t)
    (hpc : isReturnAddress s.pc) (hs : s.validStack) : t.validStack := by
  cases i with
  | call nnn =>
    rcases execCall_cases nnn s with ⟨hroom, he⟩ | ⟨-, he⟩ <;> obtain rfl := Host.Outcome.next.inj (he.symm.trans h)
    · intro k hk
      have hentry := s.stackAt_set s.pc s.sp hroom k
      have hle : k.val ≤ s.sp.val := Nat.le_of_lt_succ hk
      change isReturnAddress (State.stackAt { s with stack := s.stack.set s.sp.val s.pc } k)
      rw [hentry]
      split
      case isTrue => exact hpc
      case isFalse hne => exact hs k (lt_of_le_of_ne hle hne)
    · exact hs
  | ret =>
    rcases execRet_cases s with ⟨hpos, he⟩ | ⟨-, he⟩ <;> obtain rfl := Host.Outcome.next.inj (he.symm.trans h)
    · exact fun k hk => hs k (Nat.lt_of_lt_of_le hk (Nat.sub_le _ _))
    · exact hs
  | _ =>
    rcases exec_cases h with ⟨k, -, rfl⟩ | ⟨-, hown⟩
    · exact hs
    · rw [hown]
      exact hs

/-- Every instruction, fetched inside memory, keeps the invariant: its `PC` by the table of R19. -/
theorem exec_keeps_inv {i : Instr} {s t : State} {a : Nat} (ha : a ≤ 0x0FFE) (hpc : s.pc.toNat = a + 2) (hs : s.Inv)
    (h : exec i s = .next t) : t.Inv := by
  refine ⟨exec_keeps_mem_wf h hs.memory, ?_, exec_keeps_validStack h ⟨by omega, by omega⟩ hs.stack⟩
  rcases exec_cases h with ⟨k, -, rfl⟩ | ⟨hnone, -⟩
  · exact hs.pc
  · have htop : i = .ret → s.top.toNat ≤ 0x1000 := by
      rintro rfl
      exact hs.toNat_top_le (Nat.pos_of_ne_zero fun hempty => by simp [raisedBy, hempty] at hnone)
    rcases exec_raisedOrAt ha hpc h with ⟨k, rfl⟩ | ⟨-, hat⟩
    · exact hs.pc
    · exact hat.le.trans (pcAfter_le ha htop)

theorem step_keeps_inv {s t : State} (hs : s.Inv) (h : step s = .next t) : t.Inv := by
  have hadvanced (hfetch : s.fetchable) : (s.setPc (s.pc + 2#16)).Inv :=
    hs.setPc (hfetch.toNat_advanced.le.trans (by omega))
  exact step_elim h hs (hs.raise _) (fun hfetch => (hadvanced hfetch).raise _) fun i u hfetch _ hexec =>
    exec_keeps_inv hfetch hfetch.toNat_advanced (hadvanced hfetch) hexec

/-- The state `Reset` leaves meets the invariant, whatever the count of draws (R32). -/
theorem hostReset_inv (s : State) : (hostReset s).Inv :=
  ⟨Memory.reset_wf, (by decide : State.reset.pc.toNat ≤ 0x10FE), fun k hk => absurd hk k.val.not_lt_zero⟩

theorem hostLoad_keeps_inv {s : State} (bytes : List Byte) (hs : s.Inv) : (hostLoad bytes s).Inv := by
  rcases hostLoad_cases bytes s with ⟨-, he⟩ | ⟨-, -, he⟩ | ⟨-, hfits, he⟩ <;> rw [he]
  · exact hs
  · exact hs.raise _
  · exact ⟨Memory.writeBytes_wf (by omega) hs.memory, hs.pc, hs.stack⟩

/-- Every operation of the host keeps the invariant. -/
theorem perform_keeps_inv (o : HostOp) (s t : State) (hs : s.Inv) (h : perform o s = .next t) : t.Inv := by
  cases o with
  | step => exact step_keeps_inv hs h
  | reset =>
    obtain rfl := Host.Outcome.next.inj h
    exact hostReset_inv s
  | load bytes =>
    obtain rfl := Host.Outcome.next.inj h
    exact hostLoad_keeps_inv bytes hs
  | tickTimers | setKey | clearRedraw =>
    by_cases hlive : s.live
    · obtain rfl := (Host.Outcome.next.inj h).symm.trans (State.ifLive_of_live hlive _)
      exact ⟨hs.memory, hs.pc, hs.stack⟩
    · obtain rfl := Host.Outcome.next.inj ((perform_of_dead hlive (by simp)).symm.trans h)
      exact hs

end Sys2Proof.Machine
end

section
/-! The statements about the invariant of every run (spec/10_state.md sections 4, 5 and 13). -/

namespace Sys2Proof.Proofs

open Sys2Proof Sys2Proof.Machine

/-- Settles O10, by what a step can do: an error keeps the invariant, and so does every instruction. -/
theorem stepKeepsInvariant : Obligations.StepKeepsInvariant := fun _ _ => step_keeps_inv

/-- Settles O11: the reset state is what `Reset` makes of itself. -/
theorem resetMeetsInvariant : Obligations.ResetMeetsInvariant := hostReset_inv State.reset

/-- Settles O12: what each of the six operations keeps, every sequence keeps. -/
theorem everyRunKeepsInvariant : Obligations.EveryRunKeepsInvariant := fun _ _ _ => performAll_keeps perform_keeps_inv

end Sys2Proof.Proofs
end

section
/-! SUPPORT. Stack entries at and above `SP`, `ST` and `REDRAW` are read by nothing: states that differ in them alone step
alike (spec/10_state.md R21 to R23, R26). -/

namespace Sys2Proof.Machine

/-- The state with another stack array, another `ST` and another `REDRAW`. -/
def State.withUnread (s : State) (stack : Vector Word 16) (st : Byte) (redraw : Bool) : State :=
  { s with stack := stack, st := st, redraw := redraw }

/-- The two states agree in what the core reads: all but the entries at and above `SP`, `ST` and `REDRAW`. With `stackToo`
the whole stack array agrees as well, with `outputsToo` `ST` and `REDRAW` do. -/
def agreeOnRead (stackToo outputsToo : Prop) (s s' : State) : Prop :=
  ∃ (stack : Vector Word 16) (st : Byte) (redraw : Bool), s' = s.withUnread stack st redraw ∧
    (∀ k : Fin 16, k.val < s.sp.val → s'.stackAt k = s.stackAt k) ∧ (stackToo → stack = s.stack) ∧
    (outputsToo → st = s.st ∧ redraw = s.redraw)

section

variable {stackToo outputsToo : Prop} {s s' t : State}

/-! ### One operation -/

theorem agreeOnRead.raise (h : agreeOnRead stackToo outputsToo s s') (k : ErrorKind) :
    agreeOnRead stackToo outputsToo (s.raise k) (s'.raise k) := by
  obtain ⟨stack, st, redraw, rfl, hrest⟩ := h
  exact ⟨stack, st, redraw, rfl, hrest⟩

theorem agreeOnRead.setPc (h : agreeOnRead stackToo outputsToo s s') (p : Word) :
    agreeOnRead stackToo outputsToo (s.setPc p) (s'.setPc p) := by
  obtain ⟨stack, st, redraw, rfl, hrest⟩ := h
  exact ⟨stack, st, redraw, rfl, hrest⟩

theorem agreeOnRead.setV (h : agreeOnRead stackToo outputsToo s s') (x : Reg) (b : Byte) :
    agreeOnRead stackToo outputsToo (s.setV x b) (s'.setV x b) := by
  obtain ⟨stack, st, redraw, rfl, hrest⟩ := h
  exact ⟨stack, st, redraw, rfl, hrest⟩

theorem agreeOnRead.setMem (h : agreeOnRead stackToo outputsToo s s') (m : Memory) :
    agreeOnRead stackToo outputsToo (s.setMem m) (s'.setMem m) := by
  obtain ⟨stack, st, redraw, rfl, hrest⟩ := h
  exact ⟨stack, st, redraw, rfl, hrest⟩

theorem agreeOnRead.skipIf (h : agreeOnRead stackToo outputsToo s s') (c : Bool) :
    agreeOnRead stackToo outputsToo (s.skipIf c) (s'.skipIf c) := by
  cases c
  · exact h
  · obtain ⟨stack, st, redraw, rfl, hrest⟩ := h
    exact ⟨stack, st, redraw, rfl, hrest⟩

theorem agreeOnRead.setRegs (h : agreeOnRead stackToo outputsToo s s') (k : Nat) (bs : List Byte) :
    agreeOnRead stackToo outputsToo (s.setRegs k bs) (s'.setRegs k bs) := by
  induction bs generalizing s s' k with
  | nil => exact h
  | cons b bs ih => exact ih (h.setV (Fin.ofNat 16 k) b) (k + 1)

theorem agreeOnRead.storeAtI (h : agreeOnRead stackToo outputsToo s s') (bs : List Byte) :
    agreeOnRead stackToo outputsToo (s.storeAtI bs) (s'.storeAtI bs) := by
  obtain ⟨stack, st, redraw, rfl, -⟩ := id h
  have hstore : (s.withUnread stack st redraw).mem.store (s.withUnread stack st redraw).base bs = s.mem.store s.base bs :=
    rfl
  unfold State.storeAtI
  rw [hstore]
  split
  · exact h.setMem _
  · exact h.raise _

/-- A dot reads the display alone; where it is 1 it sets `REDRAW` whatever it was. -/
theorem agreeOnRead.plot (h : agreeOnRead stackToo outputsToo s s') (d : SpriteDot) :
    agreeOnRead stackToo outputsToo (s.plot d) (s'.plot d) := by
  obtain ⟨stack, st, redraw, rfl, hvalid, hstack, houtputs⟩ := h
  have hpixel : (s.withUnread stack st redraw).getPixel d.px d.py = s.getPixel d.px d.py := rfl
  unfold State.plot
  rw [hpixel]
  cases d.bit
  · exact ⟨stack, st, redraw, rfl, hvalid, hstack, houtputs⟩
  · cases s.getPixel d.px d.py
    all_goals exact ⟨stack, st, true, rfl, hvalid, hstack, fun ho => ⟨(houtputs ho).1, rfl⟩⟩

theorem agreeOnRead.plotAll (h : agreeOnRead stackToo outputsToo s s') (ds : List SpriteDot) :
    agreeOnRead stackToo outputsToo (s.plotAll ds) (s'.plotAll ds) := by
  induction ds generalizing s s' with
  | nil => exact h
  | cons d ds ih => exact ih (h.plot d)

/-! ### One instruction, one step -/

/-- RET reads the newest entry, which is valid, and CALL writes the entry at `SP`; no other instruction touches the stack,
and none reads `ST` or `REDRAW`. -/
theorem exec_agreeOnRead {i : Instr} (h : agreeOnRead stackToo outputsToo s s') (hexec : exec i s = .next t) :
    ∃ t', exec i s' = .next t' ∧ agreeOnRead stackToo outputsToo t t' := by
  obtain ⟨stack, st, redraw, rfl, hvalid, hstack, houtputs⟩ := id h
  cases i with
  | sys | jp | jpv0 | ldi | addi | mov | or | and | xor | add | sub | shr | subn | shl | lda | rnd | lddt | stdt | adda
  | glyph =>
    obtain rfl := Host.Outcome.next.inj hexec
    exact ⟨_, rfl, stack, st, redraw, rfl, hvalid, hstack, houtputs⟩
  | cls =>
    obtain rfl := Host.Outcome.next.inj hexec
    exact ⟨_, rfl, stack, st, true, rfl, hvalid, hstack, fun ho => ⟨(houtputs ho).1, rfl⟩⟩
  | stst x =>
    obtain rfl := Host.Outcome.next.inj hexec
    exact ⟨_, rfl, stack, s.getV x, redraw, rfl, hvalid, hstack, fun ho => ⟨rfl, (houtputs ho).2⟩⟩
  | sei | snei | ser | sner | skp | sknp =>
    obtain rfl := Host.Outcome.next.inj hexec
    exact ⟨_, rfl, h.skipIf _⟩
  | wkey x =>
    rcases execWkey_cases x s with ⟨hheld, he⟩ | ⟨hnone, he⟩ <;>
      obtain rfl := Host.Outcome.next.inj (he.symm.trans hexec)
    · exact ⟨_, if_neg hheld, stack, st, redraw, rfl, hvalid, hstack, houtputs⟩
    · exact ⟨_, if_pos hnone, h.setPc _⟩
  | bcd | stm =>
    obtain rfl := Host.Outcome.next.inj hexec
    exact ⟨_, rfl, h.storeAtI _⟩
  | drw x y n =>
    have hcases := execDrw_cases x y n (s.withUnread stack st redraw)
    rcases execDrw_cases x y n s with ⟨hin, he⟩ | ⟨hn, hout, he⟩ <;>
      obtain rfl := Host.Outcome.next.inj (he.symm.trans hexec)
    · obtain ⟨-, he'⟩ := hcases.resolve_right fun hout => hin.elim hout.1 (Nat.not_le.2 hout.2.1)
      exact ⟨_, he', (h.setV vf 0#8).plotAll _⟩
    · obtain ⟨-, -, he'⟩ := hcases.resolve_left fun hin => hin.1.elim hn (Nat.not_le.2 hout)
      exact ⟨_, he', h.raise _⟩
  | ldm x =>
    have hcases := execLdm_cases x (s.withUnread stack st redraw)
    rcases execLdm_cases x s with ⟨hin, he⟩ | ⟨hout, he⟩ <;>
      obtain rfl := Host.Outcome.next.inj (he.symm.trans hexec)
    · obtain ⟨-, he'⟩ := hcases.resolve_right fun hout => Nat.not_le.2 hout.1 hin
      exact ⟨_, he', h.setRegs 0 _⟩
    · obtain ⟨-, he'⟩ := hcases.resolve_left fun hin => Nat.not_le.2 hout hin.1
      exact ⟨_, he', h.raise _⟩
  | call nnn =>
    have hcases := execCall_cases nnn (s.withUnread stack st redraw)
    rcases execCall_cases nnn s with ⟨hroom, he⟩ | ⟨hfull, he⟩ <;>
      obtain rfl := Host.Outcome.next.inj (he.symm.trans hexec)
    · obtain ⟨_, he'⟩ := hcases.resolve_right fun hfull => hroom.ne hfull.1
      refine ⟨_, he', stack.set s.sp.val s.pc, st, redraw, rfl, fun k hk => ?_, fun hs => ?_, houtputs⟩
      case refine_2 =>
        rw [hstack hs]
        rfl
      have hle : k.val ≤ s.sp.val := Nat.le_of_lt_succ hk
      change State.stackAt { s.withUnread stack st redraw with stack := stack.set s.sp.val s.pc } k =
        State.stackAt { s with stack := s.stack.set s.sp.val s.pc } k
      refine ((s.withUnread stack st redraw).stackAt_set s.pc s.sp hroom k).trans
        (Eq.trans ?_ (s.stackAt_set s.pc s.sp hroom k).symm)
      split
      case isTrue => rfl
      case isFalse hne => exact hvalid k (lt_of_le_of_ne hle hne)
    · obtain ⟨-, he'⟩ := hcases.resolve_left fun hroom => hroom.1.ne hfull
      exact ⟨_, he', h.raise _⟩
  | ret =>
    have hcases := execRet_cases (s.withUnread stack st redraw)
    rcases execRet_cases s with ⟨hpos, he⟩ | ⟨hempty, he⟩ <;>
      obtain rfl := Host.Outcome.next.inj (he.symm.trans hexec)
    · obtain ⟨_, he'⟩ := hcases.resolve_right fun hempty => hpos.ne' hempty.1
      have htop : (s.withUnread stack st redraw).top = s.top := by
        rw [s.top_of_pos hpos, (s.withUnread stack st redraw).top_of_pos hpos]
        exact hvalid ⟨s.sp.val - 1, by omega⟩ (Nat.sub_lt hpos Nat.one_pos)
      rw [htop] at he'
      exact ⟨_, he', stack, st, redraw, rfl, fun k hk => hvalid k (Nat.lt_of_lt_of_le hk (Nat.sub_le _ _)), hstack,
        houtputs⟩
    · obtain ⟨-, he'⟩ := hcases.resolve_left fun hpos => hpos.1.ne' hempty
      exact ⟨_, he', h.raise _⟩

/-- The fetch reads `FAULT`, `PC` and memory, which agree, so both steps meet the same error or the same instruction. -/
theorem step_agreeOnRead (h : agreeOnRead stackToo outputsToo s s') (hstep : step s = .next t) :
    ∃ t', step s' = .next t' ∧ agreeOnRead stackToo outputsToo t t' := by
  obtain ⟨stack, st, redraw, rfl, -⟩ := id h
  by_cases hlive : s.live
  · rcases step_cases_of_live hlive with ⟨hout, hs⟩ | ⟨hfetch, e, he, hs⟩ | ⟨hfetch, i, hi, hs⟩
    · obtain rfl := Host.Outcome.next.inj (hs.symm.trans hstep)
      exact ⟨_, step_of_pc_gt hlive hout, h.raise _⟩
    · obtain rfl := Host.Outcome.next.inj (hs.symm.trans hstep)
      exact ⟨_, step_of_illegal (s := s.withUnread stack st redraw) hlive hfetch he, (h.setPc _).raise _⟩
    · obtain ⟨t', hexec, ht⟩ := exec_agreeOnRead (h.setPc (s.pc + 2#16)) (hs.symm.trans hstep)
      exact ⟨t', (step_of_decode (s := s.withUnread stack st redraw) hlive hfetch hi).trans hexec, ht⟩
  · obtain rfl := Host.Outcome.next.inj ((step_of_dead hlive).symm.trans hstep)
    exact ⟨_, step_of_dead hlive, h⟩

end

end Sys2Proof.Machine
end

section
/-! The statements about what no program can observe (spec/10_state.md sections 5, 6 and 8). -/

namespace Sys2Proof.Proofs

open Sys2Proof Sys2Proof.Machine

/-- Settles O51: the two states agree in all that is read and in the whole stack. -/
theorem outputsDoNotFeedBack : Obligations.OutputsDoNotFeedBack := by
  intro s t b r hstep
  have h : agreeOnRead True False s { s with st := b, redraw := r } :=
    ⟨s.stack, b, r, rfl, fun _ _ => rfl, fun _ => rfl, False.elim⟩
  obtain ⟨t', hstep', stack, b', r', rfl, -, hstack, -⟩ := step_agreeOnRead h hstep
  exact ⟨b', r', by rw [hstep', hstack trivial]; rfl⟩

/-- Settles O52: the two states agree in all that is read and in `ST` and `REDRAW`. -/
theorem staleEntriesAreUnobservable : Obligations.StaleEntriesAreUnobservable := by
  rintro s s' t ⟨heq, hvalid⟩ hstep
  have h : agreeOnRead False True s s' := ⟨s'.stack, s.st, s.redraw, heq, hvalid, False.elim, fun _ => ⟨rfl, rfl⟩⟩
  obtain ⟨_, hstep', stack, st, redraw, rfl, hvalid', -, houtputs⟩ := step_agreeOnRead h hstep
  obtain ⟨rfl, rfl⟩ := houtputs trivial
  exact ⟨_, hstep', rfl, hvalid'⟩

end Sys2Proof.Proofs
end

section
/-! SUPPORT. Steps that leave the state as it is, and steps over no-ops (spec/46_keys.md R113, spec/60_exceptions.md R152,
spec/70_reset_and_hazards.md R155). -/

namespace Sys2Proof.Machine

/-- A step that changes nothing changes nothing however often it is taken. -/
theorem performAll_replicate_step {s : State} (h : step s = .next s) (n : Nat) :
    performAll (List.replicate n .step) s = .next s :=
  performAll_of_forall_fixed fun _ ho => (List.eq_of_mem_replicate ho) ▸ h

/-- One operation more is that operation on the state the ones before left. -/
theorem performAll_replicate_succ_of_next {n : Nat} {o : HostOp} {s t : State}
    (h : performAll (List.replicate n o) s = .next t) : performAll (List.replicate (n + 1) o) s = perform o t := by
  obtain ⟨u, hu⟩ := exists_perform_eq_next o t
  rw [List.replicate_succ', performAll_append_of_next h, performAll_cons_of_next hu, hu]
  rfl

/-- A jump to the address the word was fetched from (R152). -/
theorem step_of_ended {s : State} (h : s.ended) : step s = .next s := by
  obtain ⟨hlive, hfetch, nnn, hdecode, htarget⟩ := h
  have hself : addrOperand nnn = s.pc := BitVec.eq_of_toNat_eq ((toNat_addrOperand nnn).trans htarget)
  calc step s = .next ((s.setPc (s.pc + 2#16)).setPc (addrOperand nnn)) := step_of_decode hlive hfetch hdecode
    _ = .next s := by rw [hself]; rfl

/-- The rewind takes back the fetch's advance (R112). -/
theorem State.rewind_advanced (s : State) : (s.setPc (s.pc + 2#16)).rewind = s :=
  congrArg s.setPc (add_sub_cancel_right s.pc 2#16)

theorem step_of_waiting {s : State} {x : Reg} (hlive : s.live) (hfetch : s.fetchable)
    (hdecode : decode s.nextWord = .ok (.wkey x)) (hnone : s.keys = 0#16) : step s = .next s := by
  calc step s = execWkey x (s.setPc (s.pc + 2#16)) := step_of_decode hlive hfetch hdecode
    _ = .next (s.setPc (s.pc + 2#16)).rewind := if_pos hnone
    _ = .next s := congrArg _ s.rewind_advanced

/-- Two bytes 0x00 at `PC` are a SYS: the step moves `PC` past them and does nothing else (spec/40_control.md R70). -/
theorem step_of_zero_bytes {s : State} (hlive : s.live) (hfetch : s.fetchable) (hhi : s.mem.read s.pc.toNat = 0x00#8)
    (hlo : s.mem.read (s.pc.toNat + 1) = 0x00#8) : step s = .next (s.setPc (s.pc + 2#16)) := by
  have hdecode : decode s.nextWord = .ok (.sys 0x000#12) := by
    rw [State.nextWord, hhi, hlo]
    decide
  exact step_of_decode hlive hfetch hdecode

end Sys2Proof.Machine
end

section
/-! The statements about runs that stand still or run through zeroed memory (spec/46_keys.md, spec/60_exceptions.md
section 5, spec/70_reset_and_hazards.md section 1). -/

namespace Sys2Proof.Proofs

open Sys2Proof Sys2Proof.Machine

/-- Settles O17: one step at a JP to itself changes nothing. -/
theorem endedRunStaysUnchanged : Obligations.EndedRunStaysUnchanged := fun _ n h =>
  performAll_replicate_step (step_of_ended h) n

/-- Settles O42: one step at a WKEY with no key held changes nothing. -/
theorem keyWaitSpinsInPlace : Obligations.KeyWaitSpinsInPlace := fun _ _ n hlive hfetch hdecode hnone =>
  performAll_replicate_step (step_of_waiting hlive hfetch hdecode hnone) n

/-- Settles O57, by induction on the number of steps, from the state the first one leaves. -/
theorem zeroBytesAreSteppedOver : Obligations.ZeroBytesAreSteppedOver := by
  intro s k
  induction k generalizing s with
  | zero => exact fun _ _ _ => ⟨s, rfl, rfl, rfl⟩
  | succ k ih =>
    intro hlive hend hzero
    have hfetch : s.fetchable := by unfold State.fetchable; omega
    have hadv : (s.setPc (s.pc + 2#16)).pc.toNat = s.pc.toNat + 2 := hfetch.toNat_advanced
    have hstep : perform .step s = .next (s.setPc (s.pc + 2#16)) :=
      step_of_zero_bytes hlive hfetch (hzero _ (by omega) (by omega)) (hzero _ (by omega) (by omega))
    obtain ⟨t, hrun, hpc, hframe⟩ :=
      ih (s.setPc (s.pc + 2#16)) hlive (by omega) fun a hle hlt => hzero a (by omega) (by omega)
    exact ⟨t, (performAll_cons_of_next hstep).trans hrun, by omega, hframe⟩

/-- Settles O16: from reset the no-ops reach 0x1000, where the fetch faults. -/
theorem zeroedMemoryRunsNoOps : Obligations.ZeroedMemoryRunsNoOps := by
  have hreset : State.reset.pc.toNat = 0x200 := rfl
  have hrun : ∀ k ≤ 1792, performAll (List.replicate k .step) State.reset =
      .next { State.reset with pc := BitVec.ofNat 16 (0x200 + 2 * k) } := by
    intro k hk
    obtain ⟨t, hrun, hpc, hframe⟩ :=
      zeroBytesAreSteppedOver State.reset k rfl (by omega) fun a _ _ => Memory.read_nil a
    have hpc' : t.pc = BitVec.ofNat 16 (0x200 + 2 * k) := by
      apply BitVec.eq_of_toNat_eq
      rw [hpc, hreset, BitVec.toNat_ofNat, Nat.mod_eq_of_lt (by omega)]
    rw [hrun, hframe, hpc']
  refine ⟨hrun, ?_⟩
  have hend : performAll (List.replicate 1792 .step) State.reset = .next { State.reset with pc := 0x1000#16 } :=
    hrun 1792 (Nat.le_refl 1792)
  have hlast : step { State.reset with pc := 0x1000#16 } =
      .next { State.reset with pc := 0x1000#16, fault := some .outOfBoundsMemoryAccess } := step_of_pc_gt rfl (by decide)
  exact (performAll_replicate_succ_of_next hend).trans hlast

end Sys2Proof.Proofs
end

section
/-! The statements about CALL and RET, RND, and VF as an operand (spec/40_control.md, spec/42_immediate.md,
spec/43_alu.md). -/

namespace Sys2Proof.Proofs

open Sys2Proof Sys2Proof.Machine

/-- Settles O21: the entry CALL pushes is the one RET finds. -/
theorem retUndoesCall : Obligations.RetUndoesCall := by
  intro s t nnn p hroom hcall
  obtain ⟨t', hcall', -, hsp, hentry, -⟩ := (callPushesOrOverflows s nnn).1 hroom
  obtain rfl := Host.Outcome.next.inj (hcall.symm.trans hcall')
  obtain ⟨u, hret, htop, husp, hstack, -⟩ := (retPopsOrUnderflows (t.setPc p)).1 (by rw [State.setPc_sp]; omega)
  rw [State.setPc_sp] at husp
  refine ⟨u, hret, ?_, Fin.ext (by omega), fun k hk => ?_⟩
  · have := hentry ⟨s.sp.val, hroom⟩
    rw [htop ⟨s.sp.val, hroom⟩ hsp.symm]
    exact this.trans (if_pos rfl)
  · rw [State.stackAt_congr hstack]
    exact (hentry k).trans (if_neg hk.ne)

/-- Settles O25: RND is one register write and one draw, and the byte written is the drawn one masked bit by bit. -/
theorem rndMasksAFreeByte : Obligations.RndMasksAFreeByte := by
  intro s x nn
  have hx : ((s.setV x (s.randByte &&& nn)).drawn).getV x = Config.randByte s.draws &&& nn := s.getV_setV_same x _
  refine ⟨_, rfl, hx, fun k hk => ?_, ?_, Nat.lt_succ_self _, onlyRegs_drawn (s.onlyRegs_setV x _), rfl⟩
  · rw [hx, BitVec.getLsbD_and, hk, Bool.and_false]
  · rintro rfl
    rw [hx]
    exact BitVec.and_allOnes

end Sys2Proof.Proofs
end

section
/-! SUPPORT. The flag-producing instructions with VF as an operand, and DRW beside its bounds (spec/43_alu.md R95,
spec/45_display.md R103, R107, R108). -/

namespace Sys2Proof.Machine

/-- What ADD, SUB and SUBN do, by the flag `c` and the result `f` of the operands re-read after the flag write (R84). -/
def flaggedOutcome (i : Instr) (s : State) (x y : Reg) (c : Nat) (f : Nat → Nat → Nat) : Prop :=
  ∃ t, exec i s = .next t ∧ onlyRegs [x, vf] s t ∧ t.pc = s.pc ∧
    (t.getV x).toNat = f (if x = vf then c else (s.getV x).toNat) (if y = vf then c else (s.getV y).toNat) ∧
    (x ≠ vf → (t.getV vf).toNat = c)

section

variable {i : Instr} {s : State} {r : Reg} {c : Nat} {f : Nat → Nat → Nat}

/-- VF as the source is read as the flag. -/
theorem flaggedOutcome.vf_source (hr : r ≠ vf) (h : flaggedOutcome i s r vf c f) :
    ∃ t, exec i s = .next t ∧ onlyRegs [r, vf] s t ∧ (t.getV vf).toNat = c ∧
      (t.getV r).toNat = f (s.getV r).toNat c := by
  obtain ⟨t, hexec, hframe, -, hresult, hflag⟩ := h
  rw [if_neg hr, if_pos rfl] at hresult
  exact ⟨t, hexec, hframe, hflag hr, hresult⟩

/-- Nothing but VF changes where VF is the destination. -/
theorem onlyRegs_vf {t : State} (h : onlyRegs [vf, vf] s t) : onlyRegs [vf] s t := by
  obtain ⟨hregs, hrest⟩ := h
  exact ⟨fun q hq => hregs q (by simpa using hq), hrest⟩

/-- VF as the destination is read as the flag and written with the result. -/
theorem flaggedOutcome.vf_destination (hr : r ≠ vf) (h : flaggedOutcome i s vf r c f) :
    ∃ t, exec i s = .next t ∧ onlyRegs [vf] s t ∧ (t.getV vf).toNat = f c (s.getV r).toNat := by
  obtain ⟨t, hexec, hframe, -, hresult, -⟩ := h
  rw [if_pos rfl, if_neg hr] at hresult
  exact ⟨t, hexec, onlyRegs_vf hframe, hresult⟩

/-- VF as both operands is read as the flag twice. -/
theorem flaggedOutcome.vf_both (h : flaggedOutcome i s vf vf c f) :
    ∃ t, exec i s = .next t ∧ onlyRegs [vf] s t ∧ (t.getV vf).toNat = f c c := by
  obtain ⟨t, hexec, hframe, -, hresult, -⟩ := h
  rw [if_pos rfl] at hresult
  exact ⟨t, hexec, onlyRegs_vf hframe, hresult⟩

end

/-- DRW with a byte out of bounds raises, and writes nothing (R103). -/
theorem exec_drw_of_outOfBounds {s : State} (x y : Reg) {n : Nibble} (hn : 0 < n.toNat)
    (h : 4095 < s.i.toNat + n.toNat - 1) : exec (.drw x y n) s = .next (s.raise .outOfBoundsMemoryAccess) := by
  rcases execDrw_cases x y n s with ⟨hin, -⟩ | ⟨-, -, he⟩
  · unfold State.base at hin
    omega
  · exact he

/-- Drawing the same dots again restores every pixel (R107). -/
theorem State.getPixel_plotAll_twice {ds : List SpriteDot} (hd : distinctPixels ds) {s t : State}
    (ht : ∀ px py, t.getPixel px py = (s.plotAll ds).getPixel px py) (px : Fin 64) (py : Fin 32) :
    (t.plotAll ds).getPixel px py = s.getPixel px py := by
  by_cases hhit : ∃ d ∈ ds, px = d.px ∧ py = d.py
  · obtain ⟨d, hm, rfl, rfl⟩ := hhit
    rw [State.plotAll_getPixel hd t hm, ht, State.plotAll_getPixel hd s hm, Bool.xor_assoc, Bool.xor_self, Bool.xor_false]
  · have hmiss : ∀ d ∈ ds, ¬(px = d.px ∧ py = d.py) := fun d hm hxy => hhit ⟨d, hm, hxy⟩
    rw [State.plotAll_getPixel_untouched ds t px py hmiss, ht, State.plotAll_getPixel_untouched ds s px py hmiss]

/-- The sprite is the same where the coordinates, `I` and memory are. -/
theorem State.sprite_congr {s t : State} {x y : Reg} (n : Nibble) (hx : t.getV x = s.getV x) (hy : t.getV y = s.getV y)
    (hi : t.i = s.i) (hmem : t.mem = s.mem) : t.sprite x y n = s.sprite x y n := by
  simp only [State.sprite, State.base, hx, hy, hi, hmem]

end Sys2Proof.Machine
end

section
/-! The statements about VF as an operand, DRW's bounds and its inverse, and what a store leaves for LDM and for the fetch
(spec/43_alu.md, spec/45_display.md, spec/48_memops.md, spec/20_memory.md). -/

namespace Sys2Proof.Proofs

open Sys2Proof Sys2Proof.Machine

/-- Settles O32: each row is an instruction's outcome for every X and Y, taken at VF; ADD of VF to itself doubles the carry,
and VF less itself is 0. -/
theorem vfOperandTable : Obligations.VfOperandTable := by
  intro s r y hr v old c ge le
  have hadd (x y : Reg) : flaggedOutcome (.add x y) s x y _ fun m n => (m + n) % 256 := addWritesCarryThenSum s x y
  have hsub (x y : Reg) : flaggedOutcome (.sub x y) s x y _ fun m n => (m + 256 - n) % 256 :=
    subWritesNotBorrowThenDifference s x y
  have hsubn (x y : Reg) : flaggedOutcome (.subn x y) s x y _ fun m n => (n + 256 - m) % 256 :=
    subnWritesNotBorrowThenDifference s x y
  have hdouble : ((if old + old > 255 then 1 else 0) + if old + old > 255 then 1 else 0) % 256 =
      if old ≥ 128 then 2 else 0 := by split <;> split <;> omega
  have hcancel : ((if old ≥ old then 1 else 0) + 256 - if old ≥ old then 1 else 0) % 256 = 0 := by
    rw [Nat.add_sub_cancel_left]
  have hcomm : (if old + v > 255 then 1 else 0) = c := by rw [Nat.add_comm]
  refine ⟨(hadd r vf).vf_source hr, hcomm ▸ (hadd vf r).vf_destination hr, hdouble ▸ (hadd vf vf).vf_both,
    (hsub r vf).vf_source hr, (hsub vf r).vf_destination hr, hcancel ▸ (hsub vf vf).vf_both,
    (hsubn r vf).vf_source hr, (hsubn vf r).vf_destination hr, hcancel ▸ (hsubn vf vf).vf_both, ?_, ?_, ?_, ?_⟩
  · obtain ⟨t, hexec, hframe, -, -, hself⟩ := shrShiftsVxRight s vf y
    exact ⟨t, hexec, onlyRegs_vf hframe, congrArg BitVec.toNat (hself rfl)⟩
  · obtain ⟨t, hexec, hframe, -, -, hself⟩ := shlShiftsVxLeft s vf y
    exact ⟨t, hexec, onlyRegs_vf hframe, hself rfl⟩
  · obtain ⟨t, hexec, hframe, -, hother, -⟩ := shrShiftsVxRight s r vf
    exact ⟨t, hexec, hframe, (hother hr).symm⟩
  · obtain ⟨t, hexec, hframe, -, hother, -⟩ := shlShiftsVxLeft s r vf
    exact ⟨t, hexec, hframe, (hother hr).symm⟩

/-- Settles O38: the bounds check comes first (R103). -/
theorem drwOutOfBoundsChangesNothing : Obligations.DrwOutOfBoundsChangesNothing := fun _ x y _ hn hout =>
  exec_drw_of_outOfBounds x y hn hout

/-- Settles O39: with no row there is no dot, and the VF reset is left (R108). -/
theorem drwZeroRowsOnlyResetsVf : Obligations.DrwZeroRowsOnlyResetsVf := fun s x y =>
  ⟨_, exec_drw_of_inBounds x y (.inl rfl), s.getV_setV_same vf 0#8, s.onlyRegs_setV vf 0#8, rfl⟩

/-- Settles O40: the second DRW draws the same dots, or both raise. -/
theorem drwTwiceRestoresDisplay : Obligations.DrwTwiceRestoresDisplay := by
  intro s t u x y n hfirst hx hy hsecond px py
  by_cases hbounds : n.toNat = 0 ∨ s.i.toNat + n.toNat - 1 ≤ 4095
  · obtain rfl := Host.Outcome.next.inj ((exec_drw_of_inBounds x y hbounds).symm.trans hfirst)
    obtain ⟨hi, -, -, -, -, -, -, hmem, -⟩ := (s.setV vf 0#8).plotAll_frame (s.sprite x y n)
    have hsprite := State.sprite_congr n hx hy hi hmem
    obtain rfl := Host.Outcome.next.inj ((exec_drw_of_inBounds x y (by rw [hi]; exact hbounds)).symm.trans hsecond)
    rw [hsprite]
    exact State.getPixel_plotAll_twice (s.distinctPixels_sprite x y n) (State.getPixel_setV _ vf 0#8) px py
  · obtain ⟨hn, hout⟩ : 0 < n.toNat ∧ 4095 < s.i.toNat + n.toNat - 1 := by omega
    obtain rfl := Host.Outcome.next.inj ((exec_drw_of_outOfBounds x y hn hout).symm.trans hfirst)
    obtain rfl := Host.Outcome.next.inj
      ((exec_drw_of_outOfBounds (s := s.raise .outOfBoundsMemoryAccess) x y hn hout).symm.trans hsecond)
    rfl

/-- Settles O46: LDM reads at the addresses where STM wrote. -/
theorem ldmRestoresWhatStmSaved : Obligations.LdmRestoresWhatStmSaved := by
  intro s t u x hfits hstm hi hmem
  obtain ⟨t', hstm', hstored, -, hframe⟩ := (stmStoresV0ToVx s x).1 hfits
  obtain rfl := Host.Outcome.next.inj (hstm.symm.trans hstm')
  have hbase : u.base = s.base := congrArg BitVec.toNat (hi.trans (by rw [hframe]))
  obtain ⟨w, hldm, hloaded, -⟩ := (ldmLoadsV0ToVx u x).1 (by omega)
  refine ⟨w, hldm, fun r hr => ?_⟩
  calc w.getV r = u.mem.read (s.base + r.val) := by rw [hloaded r hr, hbase]
    _ = t.mem.read (s.base + r.val) := hmem _
    _ = s.getV r := hstored r hr

/-- Settles O47: the two bytes at `PC` are V0 and V1, and the next fetch reads them. -/
theorem storeIsSeenByNextFetch : Obligations.StoreIsSeenByNextFetch := by
  intro s t x i hlive hx hi hfits hstm
  obtain ⟨t', hstm', hstored, -, hframe⟩ := (stmStoresV0ToVx s x).1 hfits
  obtain rfl := Host.Outcome.next.inj (hstm.symm.trans hstm')
  have hpc : t.pc.toNat = s.base := congrArg BitVec.toNat (Eq.trans (by rw [hframe]) hi.symm)
  have hword : t.nextWord = wordOfBytes (s.getV 0) (s.getV 1) := by
    rw [State.nextWord, hpc]
    exact congrArg₂ wordOfBytes (hstored 0 (Fin.zero_le x)) (hstored 1 hx)
  refine ⟨by rw [hword, toNat_wordOfBytes], fun hdecode => step_of_decode ?_ ?_ (hword ▸ hdecode)⟩
  · rw [State.live, hframe]
    exact hlive
  · unfold State.fetchable
    omega

end Sys2Proof.Proofs
end
